-- ==== Sys2Proof/Word.lean ====
section
/-! DEFINITION. The bit vectors the spec names: a byte (R33, R8) and a 32-bit frame (R3). Bits are numbered from 0
at the least significant bit and every value is unsigned (R13). -/

namespace Sys2Proof

/-- One byte: a DMEM byte (R33), a byte of a frame (R14) or a status value, STATUS_W = 8 (R8). -/
abbrev Byte := BitVec 8

/-- A shift-register frame: 32 bits for every variant (R3), bit 31 first on the wire (R13). -/
abbrev Frame := BitVec 32

end Sys2Proof
end

