-- ==== Sys2Proof/Config.lean ====
section
/-! DEFINITION. What one machine fixes for good (the OPEN parameters of 00_scope.md R9 to R11 and of the table
"Open parameters" of 92_eei_decisions.md), and the FREE VALUES the spec leaves open. A free value is an `opaque`
constant without a body: nothing in Lean can evaluate it, so a claim that holds of the model holds whatever it is.

The widths of the context, of a DMEM address, of a length and of INIT's variant argument are parameters, so the values
they bound are held as `Nat` and the bounds are checked (WellFormed.lean, Safety.lean). -/

namespace Sys2Proof

/-- The three data widths N (R2): 16, 14 and 12 bits. `dataBits` (Machine/Operands.lean) gives the number. -/
inductive Width where
  | w16
  | w14
  | w12
deriving DecidableEq, Repr, Inhabited

/-- Which width each of the variant tags 0, 1, 2 has: the configuration parameter of decision D5 and of U14
("a bijection from {0,1,2} to {16,14,12}"). -/
structure TagMap where
  tag0 : Width
  tag1 : Width
  tag2 : Width
deriving DecidableEq, Repr

/-- The map is a bijection: no two tags have one width (D5). -/
abbrev TagMap.wf (t : TagMap) : Prop := t.tag0 ≠ t.tag1 ∧ t.tag0 ≠ t.tag2 ∧ t.tag1 ≠ t.tag2

/-- The named parameters of the model: R9 (VARIANT_IN_W), R10 (CTX_W), R11 (ADDR_W, LEN_W), R69 (the tag map). -/
structure Config where
  variantInW : Nat
  ctxW : Nat
  addrW : Nat
  lenW : Nat
  tags : TagMap
deriving DecidableEq, Repr

/-- The constraints of the table "Open parameters" of 92_eei_decisions.md. -/
abbrev Config.wf (c : Config) : Prop := 2 ≤ c.variantInW ∧ 1 ≤ c.addrW ∧ 1 ≤ c.lenW ∧ c.tags.wf

/-- A level of a control line (R111). -/
inductive Level where
  | low
  | high
deriving DecidableEq, Repr, Inhabited

/-- The three control lines of R28(c). -/
inductive Line where
  | sync
  | ldac
  | clr
deriving DecidableEq, Repr, Inhabited

/-- What the transport does with a call at one moment: it has not returned yet (R113), or it returns a status (R112). -/
inductive Answer where
  | pending
  | returned (status : Byte)
deriving DecidableEq, Repr, Inhabited

/-- FREE VALUE (R112, R113, U6, U7): what the transport answers when it is looked at for the n-th time. Any 8-bit
status, or no return yet; an `n`-th answer that is `pending` for ever after is a call that never returns (log entry 6). -/
opaque Config.transportAnswer : Nat → Answer

/-- FREE VALUE (R137): the level of a line that a call should drive, while the call is outstanding or after it has
failed, at the transport's n-th moment (log entry 8). -/
opaque Config.lineLevel : Nat → Level

/-- FREE VALUE (R31, U8): the level of each line after reset (log entry 7). -/
opaque Config.lineAtReset : Line → Level

/-- FREE VALUE (R31, U8): what a DMEM byte holds that nothing has written since reset, by its address (log entry 7). -/
opaque Config.dmemAtReset : Nat → Byte

/-- FREE VALUE (R45, U11): what another agent reads from the range of a FORMAT that is BUSY, at its n-th read
(log entry 11). -/
opaque Config.racingByte : Nat → Byte

end Sys2Proof
end

