-- ==== Sys2Proof/Machine/Params.lean ====
section
/-! DEFINITION. The parameters of the machine that `State.reset` is, and the default tag map of R69. -/

namespace Sys2Proof

/-- R69: tag 0 has 16 data bits, tag 1 has 14, tag 2 has 12 (decision D5, the spec's own). -/
def TagMap.default : TagMap := { tag0 := .w16, tag1 := .w14, tag2 := .w12 }

/-- DESIGN CHOICE (log entry 1, unsafe for a claim about `State.reset` itself): the spec leaves the four widths open.
Statements about every state hold for every choice, since the parameters stand in the state. -/
def Config.default : Config := { variantInW := 4, ctxW := 16, addrW := 16, lenW := 16, tags := TagMap.default }

end Sys2Proof
end

