-- ==== Sys2Proof/Syntax.lean ====
section
/-! DEFINITION. The instructions: one constructor of `Instr` for each row of spec/opcode_table.json (the four host
requests of 30_encoding.md R52 and the three frame formats of R55 to R57), the host request record of R51, and what can
stand at the block's input (`PortItem`). -/

namespace Sys2Proof

/-- The command descriptor `q.desc` with exactly the port widths of R12: RW 1 bit (0 WRITE, 1 READ), CMD 4, ADDR 4,
DATA 16, MODE 4. -/
structure Desc where
  rw : BitVec 1
  cmd : BitVec 4
  addr : BitVec 4
  data : BitVec 16
  mode : BitVec 4
deriving DecidableEq, Repr

/-- A descriptor of unsigned integers of any size: the operand of ENCODE as R70 has it, before its masks (R78). -/
structure RawDesc where
  rw : Nat
  cmd : Nat
  addr : Nat
  data : Nat
  mode : Nat
deriving DecidableEq, Repr

/-- The fields INIT uses (R51, R84). -/
structure InitArgs where
  hv : Bool
  variant : Nat
  tp : Bool
  capShift : Bool
  capSel : Bool
  capLdac : Bool
  capClr : Bool
  ctx : Nat
deriving DecidableEq, Repr

/-- The fields WRITE uses (R51, R88). -/
structure WriteArgs where
  hv : Bool
  desc : Desc
deriving DecidableEq, Repr

/-- The fields FORMAT uses (R51, R93). -/
structure FormatArgs where
  hv : Bool
  dv : Bool
  destBase : Nat
  length : Nat
  desc : Desc
deriving DecidableEq, Repr

/-- The instructions. The first four are the host requests of R52, each with the fields R51 says it uses and no other
(R53). The last three are the frame formats of R55 to R57, each with the fields its bit pattern shows: the data field
holds the N bits that the format carries. -/
inductive Instr where
  | init (q : InitArgs)
  | write (q : WriteArgs)
  | format (q : FormatArgs)
  | rsvd
  | frameF16 (rw : BitVec 1) (cmd addr : BitVec 4) (data : BitVec 16) (mode : BitVec 4)
  | frameF14 (rw : BitVec 1) (cmd addr : BitVec 4) (data : BitVec 14) (mode : BitVec 4)
  | frameF12 (rw : BitVec 1) (cmd addr : BitVec 4) (data : BitVec 12) (mode : BitVec 4)
deriving DecidableEq, Repr

/-- The host request record of R51: every field, used or not. -/
structure Request where
  op : BitVec 2
  hv : Bool
  variant : Nat
  tp : Bool
  capShift : Bool
  capSel : Bool
  capLdac : Bool
  capClr : Bool
  ctx : Nat
  desc : Desc
  dv : Bool
  destBase : Nat
  length : Nat
deriving DecidableEq, Repr

/-- What stands at the block's input. `request` is a host request record as its bytes (the layout is Decode.lean's).
`frame` is a frame with the format it is to be read in (R66: the bits of a frame do not say it): it asks the frame
encoder alone to produce that frame. No host can send it (40_frame_encoder.md: "The host cannot call ENCODE on its
own"); it is how the model runs a FRAME row by itself. -/
inductive PortItem where
  | request (bytes : List Byte)
  | frame (format : Width) (bytes : List Byte)
deriving DecidableEq, Repr

/-- Why bytes are not an instruction. -/
inductive DecodeError where
  /-- a request that does not have the request record's number of bytes -/
  | requestLength
  /-- a request with a bit set above the record's last field -/
  | requestStrayBits
  /-- a frame that does not have 4 bytes (R3) -/
  | frameLength
  /-- a frame with a don't-care bit F[31:29] set (R58, R68) -/
  | dontCareBits
  /-- a frame with a pad bit set (R60, R68) -/
  | padBits
deriving DecidableEq, Repr

end Sys2Proof
end

