-- ==== Sys2Proof/WellFormed.lean ====
section
/-! DEFINITION. Which instructions the request port can carry: a field whose width is a parameter of the model is within
that width (R9 to R11). Every other field has its width in its type (R12). -/

namespace Sys2Proof

/-- INIT's variant argument has VARIANT_IN_W bits (R9) and its context CTX_W bits (R10). -/
abbrev InitArgs.wf (c : Config) (q : InitArgs) : Prop := q.variant < 2 ^ c.variantInW ∧ q.ctx < 2 ^ c.ctxW

/-- FORMAT's address has ADDR_W bits and its length LEN_W bits (R11). -/
abbrev FormatArgs.wf (c : Config) (q : FormatArgs) : Prop := q.destBase < 2 ^ c.addrW ∧ q.length < 2 ^ c.lenW

/-- The instruction's fields fit the ports of a machine with the parameters `c`. -/
def Instr.wf (c : Config) (i : Instr) : Bool :=
  match i with
  | .init q => decide (q.wf c)
  | .write _ => true
  | .format q => decide (q.wf c)
  | .rsvd => true
  | .frameF16 _ _ _ _ _ => true
  | .frameF14 _ _ _ _ _ => true
  | .frameF12 _ _ _ _ _ => true

/-- The request record's fields of open width are within it. -/
abbrev Request.wf (c : Config) (q : Request) : Prop :=
  q.variant < 2 ^ c.variantInW ∧ q.ctx < 2 ^ c.ctxW ∧ q.destBase < 2 ^ c.addrW ∧ q.length < 2 ^ c.lenW

end Sys2Proof
end

