-- ==== Sys2Proof/Decode.lean ====
section
/-! DEFINITION. From the bits at the block's input to an instruction, and back.

* Byte order: a frame is most significant byte first (R14, R35). A request record has no byte order in the spec; the
  model lays its bits out from the record's bit 0 upward, 8 to a byte (log entry 2).
* The request record (R51): the spec gives it no layout but `q.op` in its bits 1:0 (opcode_table.json). The other
  fields follow in the order of R51's table (log entry 2, DESIGN CHOICE).
* The frames (R54 to R57) and reading one back (R68).

Decoding is total and refuses by name. -/

namespace Sys2Proof

/-! ## Bytes -/

/-- R14: `byte_i(F) = F[31-8i : 24-8i]`. -/
def frameByte (F : Frame) (i : Nat) : Byte := F.extractLsb' (24 - 8 * i) 8

/-- The four bytes of a frame, byte 0 first (R14, R35). -/
def frameBytes (F : Frame) : List Byte := [frameByte F 0, frameByte F 1, frameByte F 2, frameByte F 3]

/-- The frame of four bytes, byte 0 first (R14, R35, R36). -/
def frameOfBytes (b0 b1 b2 b3 : Byte) : Frame := b0 ++ b1 ++ b2 ++ b3

/-- The low `8 * k` bits of a number as `k` bytes, bits 7:0 first. -/
def toBytesLE : Nat → Nat → List Byte
  | 0, _ => []
  | k + 1, n => BitVec.ofNat 8 n :: toBytesLE k (n / 256)

/-- The number of a list of bytes, its first byte bits 7:0. -/
def ofBytesLE : List Byte → Nat
  | [] => 0
  | b :: bs => b.toNat + 256 * ofBytesLE bs

/-! ## The request record -/

/-- The widths of the request record's fields, in the order of R51's table. -/
def requestWidths (c : Config) : List Nat :=
  [2, 1, c.variantInW, 1, 1, 1, 1, 1, c.ctxW, 1, 4, 4, 16, 4, 1, c.addrW, c.lenW]

/-- The number of bits of a request record. -/
def requestBits (c : Config) : Nat := (requestWidths c).sum

/-- The number of whole bytes that hold a request record. -/
def requestBytes (c : Config) : Nat := (requestBits c + 7) / 8

/-- Lay values out in fields of the given widths, the first field at bit 0; a value keeps its low bits. -/
def packFields : List Nat → List Nat → Nat
  | w :: ws, v :: vs => v % 2 ^ w + 2 ^ w * packFields ws vs
  | _, _ => 0

/-- The values of the fields of the given widths, the first field at bit 0. -/
def unpackFields : List Nat → Nat → List Nat
  | [], _ => []
  | w :: ws, n => n % 2 ^ w :: unpackFields ws (n / 2 ^ w)

/-- The fields' values in the order of R51's table. -/
def Request.fields (q : Request) : List Nat :=
  [q.op.toNat, q.hv.toNat, q.variant, q.tp.toNat, q.capShift.toNat, q.capSel.toNat, q.capLdac.toNat, q.capClr.toNat,
    q.ctx, q.desc.rw.toNat, q.desc.cmd.toNat, q.desc.addr.toNat, q.desc.data.toNat, q.desc.mode.toNat, q.dv.toNat,
    q.destBase, q.length]

/-- The record with the given field values; a list of another length is no record. -/
def Request.ofFields : List Nat → Option Request
  | [op, hv, variant, tp, capShift, capSel, capLdac, capClr, ctx, rw, cmd, addr, data, mode, dv, destBase, length] =>
    some
      { op := BitVec.ofNat 2 op
        hv := hv != 0
        variant := variant
        tp := tp != 0
        capShift := capShift != 0
        capSel := capSel != 0
        capLdac := capLdac != 0
        capClr := capClr != 0
        ctx := ctx
        desc :=
          { rw := BitVec.ofNat 1 rw
            cmd := BitVec.ofNat 4 cmd
            addr := BitVec.ofNat 4 addr
            data := BitVec.ofNat 16 data
            mode := BitVec.ofNat 4 mode }
        dv := dv != 0
        destBase := destBase
        length := length }
  | _ => none

/-- The bytes of a request record. -/
def Request.toBytes (c : Config) (q : Request) : List Byte :=
  toBytesLE (requestBytes c) (packFields (requestWidths c) q.fields)

/-- The request record that bytes hold. -/
def Request.ofBytes (c : Config) (bs : List Byte) : Except DecodeError Request :=
  if bs.length ≠ requestBytes c then .error .requestLength
  else if 2 ^ requestBits c ≤ ofBytesLE bs then .error .requestStrayBits
  else
    match Request.ofFields (unpackFields (requestWidths c) (ofBytesLE bs)) with
    | some q => .ok q
    | none => .error .requestLength

/-- R52: `q.op` selects the operation. R53: the fields an operation does not use are dropped here, whatever they hold. -/
def Request.select (q : Request) : Instr :=
  match q.op with
  | 0b00#2 =>
    .init
      { hv := q.hv, variant := q.variant, tp := q.tp, capShift := q.capShift, capSel := q.capSel,
        capLdac := q.capLdac, capClr := q.capClr, ctx := q.ctx }
  | 0b01#2 => .write { hv := q.hv, desc := q.desc }
  | 0b10#2 => .format { hv := q.hv, dv := q.dv, destBase := q.destBase, length := q.length, desc := q.desc }
  | _ => .rsvd

/-! ## The frames -/

/-- Format F16 (R55): `000RCCCCAAAADDDDDDDDDDDDDDDDMMMM`. -/
def packF16 (rw : BitVec 1) (cmd addr : BitVec 4) (data : BitVec 16) (mode : BitVec 4) : Frame :=
  0b000#3 ++ rw ++ cmd ++ addr ++ data ++ mode

/-- Format F14 (R56): `000RCCCCAAAADDDDDDDDDDDDDD00MMMM`. -/
def packF14 (rw : BitVec 1) (cmd addr : BitVec 4) (data : BitVec 14) (mode : BitVec 4) : Frame :=
  0b000#3 ++ rw ++ cmd ++ addr ++ data ++ 0b00#2 ++ mode

/-- Format F12 (R57): `000RCCCCAAAADDDDDDDDDDDD0000MMMM`. -/
def packF12 (rw : BitVec 1) (cmd addr : BitVec 4) (data : BitVec 12) (mode : BitVec 4) : Frame :=
  0b000#3 ++ rw ++ cmd ++ addr ++ data ++ 0b0000#4 ++ mode

/-- The pad bits F[19-N : 4] of R60 are 0: none for F16, F[5:4] for F14, F[7:4] for F12. -/
def padIsZero (w : Width) (F : Frame) : Bool :=
  match w with
  | .w16 => true
  | .w14 => F.extractLsb' 4 2 == 0#2
  | .w12 => F.extractLsb' 4 4 == 0#4

/-- R68: the fields of a frame of the given format. -/
def frameFields (w : Width) (F : Frame) : Instr :=
  let rw := F.extractLsb' 28 1
  let cmd := F.extractLsb' 24 4
  let addr := F.extractLsb' 20 4
  let mode := F.extractLsb' 0 4
  match w with
  | .w16 => .frameF16 rw cmd addr (F.extractLsb' 4 16) mode
  | .w14 => .frameF14 rw cmd addr (F.extractLsb' 6 14) mode
  | .w12 => .frameF12 rw cmd addr (F.extractLsb' 8 12) mode

/-- R68: a word is a well-formed frame of a format when its don't-care bits and its pad bits are 0; then its fields are
recovered. -/
def decodeFrame (w : Width) (F : Frame) : Except DecodeError Instr :=
  if F.extractLsb' 29 3 ≠ 0#3 then .error .dontCareBits
  else if padIsZero w F = false then .error .padBits
  else .ok (frameFields w F)

/-! ## Decoding and encoding -/

/-- The instruction at the block's input. -/
def decode (c : Config) : PortItem → Except DecodeError Instr
  | .request bs =>
    match Request.ofBytes c bs with
    | .ok q => .ok q.select
    | .error e => .error e
  | .frame w [b0, b1, b2, b3] => decodeFrame w (frameOfBytes b0 b1 b2 b3)
  | .frame _ _ => .error .frameLength

/-- A request record whose fields are all 0. -/
def Request.blank : Request :=
  { op := 0, hv := false, variant := 0, tp := false, capShift := false, capSel := false, capLdac := false,
    capClr := false, ctx := 0, desc := { rw := 0, cmd := 0, addr := 0, data := 0, mode := 0 }, dv := false,
    destBase := 0, length := 0 }

/-- The input item of an instruction: a request with its op code of R52 and its fields of R51 (a field it does not use
is 0), or a frame of its format. -/
def encode (c : Config) : Instr → PortItem
  | .init q =>
    .request
      (Request.toBytes c
        { Request.blank with
          op := 0b00, hv := q.hv, variant := q.variant, tp := q.tp, capShift := q.capShift, capSel := q.capSel,
          capLdac := q.capLdac, capClr := q.capClr, ctx := q.ctx })
  | .write q => .request (Request.toBytes c { Request.blank with op := 0b01, hv := q.hv, desc := q.desc })
  | .format q =>
    .request
      (Request.toBytes c
        { Request.blank with
          op := 0b10, hv := q.hv, desc := q.desc, dv := q.dv, destBase := q.destBase, length := q.length })
  | .rsvd => .request (Request.toBytes c { Request.blank with op := 0b11 })
  | .frameF16 rw cmd addr data mode => .frame .w16 (frameBytes (packF16 rw cmd addr data mode))
  | .frameF14 rw cmd addr data mode => .frame .w14 (frameBytes (packF14 rw cmd addr data mode))
  | .frameF12 rw cmd addr data mode => .frame .w12 (frameBytes (packF12 rw cmd addr data mode))

/-! ## The words of spec/opcode_table.json -/

/-- The narrowest format whose pad bits a frame has at 0. The three FRAME rows overlap (a frame does not say its format,
R66), so a bare 32-bit word is read in the row that fixes most of its bits (log entry 4). -/
def narrowestFormat (F : Frame) : Width :=
  if padIsZero .w12 F then .w12 else if padIsZero .w14 F then .w14 else .w16

/-- The input item of a table word: the FRAME rows have 32 bits, the request rows the bits of `q.op` and 0 above. -/
def tableItem (c : Config) (nbits w : Nat) : PortItem :=
  if nbits = 32 then .frame (narrowestFormat (BitVec.ofNat 32 w)) (frameBytes (BitVec.ofNat 32 w))
  else .request (toBytesLE (requestBytes c) (w % 2 ^ nbits))

/-- The instruction the decoder reads from a table word, on a machine with the default parameters. -/
def decodeTableWord (nbits w : Nat) : Option Instr :=
  match decode Config.default (tableItem Config.default nbits w) with
  | .ok i => some i
  | .error _ => none

end Sys2Proof
end

