-- ==== Sys2Proof/Machine/State.lean ====
section
/-! DEFINITION. The state of the machine as plain data (10_state.md): the block's session registers S (R20) and its
operation state B (R27), and the environment's pieces that R28 says a model carries (DMEM, the transport trace, the line
levels), with the request and response ports and the environment's own doings. INVENTORY.md lists every field. -/

namespace Sys2Proof.Machine

/-- The session registers S of R20. `tp` and the capability bits are 1 when `true` (R22). -/
structure Session where
  variant : BitVec 2
  tp : Bool
  capShift : Bool
  capSel : Bool
  capLdac : Bool
  capClr : Bool
  ctx : Nat
deriving DecidableEq, Repr

/-- A transport call with its arguments: the four kinds of R101 and no other. -/
inductive TCall where
  | shift (bytes : List Byte) (length : Nat) (ctx : Nat)
  | setClr (level : BitVec 1) (ctx : Nat)
  | setLdac (level : BitVec 1) (ctx : Nat)
  | setSelect (level : BitVec 1) (ctx : Nat)
deriving DecidableEq, Repr

/-- One event of the transport trace (R101): `Call(kind, arguments)` or `Return(status)`. -/
inductive TraceEvent where
  | call (c : TCall)
  | ret (status : Byte)
deriving DecidableEq, Repr

/-- The operation being executed (R27): `op` is B.op, `step` is B.step (how many effects of the operation's rule have
been made), `ret` is the pseudocode's local `s` (the status of the call that returned last; R84, R88), and `pending` is
the transport call that has not returned yet, if there is one. -/
structure InFlight where
  op : Instr
  step : Nat
  ret : Byte
  pending : Option TCall
deriving DecidableEq, Repr

/-- B.phase (R27). B.op and B.step have no meaning while the block is IDLE (R30): they are there only while it is BUSY. -/
inductive Phase where
  | idle
  | busy (f : InFlight)
deriving DecidableEq, Repr

/-- The operation state B of R27: the phase, and INIT's status accumulator B.acc. -/
structure Block where
  phase : Phase
  acc : Byte
deriving DecidableEq, Repr

/-- The levels of SYNC, LDAC and CLR (R28(c)). -/
structure Lines where
  sync : Level
  ldac : Level
  clr : Level
deriving DecidableEq, Repr

/-- The ports: what the host has put at the input, first to be taken first; the statuses sent on the response port,
first sent first (R17); and what the encoder has returned to a FRAME row run by itself (R70). -/
structure Io where
  port : List PortItem
  responses : List Byte
  encoded : List (List Byte)
deriving DecidableEq, Repr

/-- What agents outside the block may do: reset it (R134, R135), read or write a DMEM byte (R33, R45), or let a transport
call return that a reset has abandoned (R135). -/
inductive EnvAct where
  | reset
  | read (a : Nat)
  | write (a : Nat) (b : Byte)
  | lateReturn (status : Byte)
deriving DecidableEq, Repr

/-- An outside event, and how many effects of the block (the acceptance of a request among them) or idle steps come before
it, counted from the event before. -/
structure EnvEvent where
  delay : Nat
  act : EnvAct
deriving DecidableEq, Repr

/-- The environment. `script` gives the transport's first answers (the free value `Config.transportAnswer` gives the
others); `polls` counts the answers taken; `events` are the outside events to come; `seen` are the bytes other agents
have read; `orphans` are the calls a reset has abandoned and that have not returned. -/
structure Env where
  script : List Answer
  polls : Nat
  events : List EnvEvent
  seen : List Host.Cell
  orphans : List TCall
deriving DecidableEq, Repr

/-- The machine. `cfg` are the parameters of the model, which no step changes. `dmem` lists the DMEM bytes written since
power-on, addresses strictly rising; an unlisted byte holds a free value (R31). `trace` is the transport trace since the
last reset (R31), `earlier` what was in it at earlier resets (R135: calls already issued remain made). -/
structure State where
  cfg : Config
  session : Session
  block : Block
  dmem : List Host.Cell
  trace : List TraceEvent
  earlier : List TraceEvent
  lines : Lines
  io : Io
  env : Env
deriving DecidableEq, Repr

/-- Why the machine stops with a fault. The block itself raises none (R17, 60_exceptions.md: no traps). -/
inductive Fault where
  /-- Raised by `step` when the environment's events name a DMEM address that does not exist (R33: 0 to 2^ADDR_W - 1).
  Safe: no claim about a next state covers such an environment. -/
  | noSuchAddress (a : Nat)
deriving DecidableEq, Repr

/-- Why the model gives no next state. -/
inductive Refusal where
  /-- An instruction without a meaning: no arm of `exec` answers it. Safe. -/
  | notModelled (mnemonic : String)
  /-- Raised by INIT, WRITE, FORMAT and RSVD made while the block is BUSY: "a model gives a request made while BUSY no
  step" (R140, U9). Safe. -/
  | requestWhileBusy
  /-- Raised by FORMAT when DEST_BASE + LENGTH > 2^ADDR_W, after its validation: "is refused, and the model has no step
  for it" (R41, U10). Safe. -/
  | rangePastTop
  /-- Raised by `step` when the bytes at the input are no request record and no frame of their format. Safe. -/
  | undecodable (e : DecodeError)
deriving DecidableEq, Repr

/-- The session registers after reset (R29). -/
def Session.reset : Session :=
  { variant := 3, tp := false, capShift := false, capSel := false, capLdac := false, capClr := false, ctx := 0 }

/-- The operation state after reset (R30). -/
def Block.reset : Block := { phase := .idle, acc := 0x00 }

/-- The machine after power-on reset: S and B as R29 and R30 say, the trace empty (R31), nothing listed in DMEM and the
line levels free values (R31); nothing at the ports, and no outside event to come. -/
def State.reset : State :=
  { cfg := Config.default
    session := Session.reset
    block := Block.reset
    dmem := []
    trace := []
    earlier := []
    lines :=
      { sync := Config.lineAtReset .sync, ldac := Config.lineAtReset .ldac, clr := Config.lineAtReset .clr }
    io := { port := [], responses := [], encoded := [] }
    env := { script := [], polls := 0, events := [], seen := [], orphans := [] } }

end Sys2Proof.Machine
end

