-- ==== Sys2Proof/Machine/Flags.lean ====
section
/-! DEFINITION. Status values. The block has no condition flags (R26); what an operation computes besides its effects is
the one status it returns (R116), and INIT's is an OR (R87). -/

namespace Sys2Proof.Machine

/-- OK (R116). -/
def statusOk : Byte := 0x00

/-- Error (R116): raised by RSVD only (R118). -/
def statusError : Byte := 0x01

/-- InvalidArgument (R116, R119). -/
def statusInvalidArgument : Byte := 0x02

/-- UnknownVersion (R116, R120). -/
def statusUnknownVersion : Byte := 0x03

/-- `B.acc | s` (R87): the exact bitwise OR (R122). -/
def orStatus (acc s : Byte) : Byte := acc ||| s

end Sys2Proof.Machine
end

