-- ==== Sys2Proof/Machine/Operands.lean ====
section
/-! DEFINITION. The operands of an operation: the variant table (R69), the frame encoder ENCODE (R70 to R80), the
arguments of the transport calls (R101 to R104) and the line levels (R111). -/

namespace Sys2Proof.Machine

/-! ## The variant table -/

/-- N (R2). -/
def dataBits : Width → Nat
  | .w16 => 16
  | .w14 => 14
  | .w12 => 12

/-- DMASK = (0xFFFF << (16 - N)) & 0xFFFF (R69). -/
def dmask (w : Width) : BitVec 16 := 0xFFFF#16 <<< (16 - dataBits w)

/-- R69: the data width of a variant tag; a tag of 3 or more has none. -/
def widthOf (c : Config) (v : Nat) : Option Width :=
  match v with
  | 0 => some c.tags.tag0
  | 1 => some c.tags.tag1
  | 2 => some c.tags.tag2
  | _ => none

/-! ## The frame encoder -/

/-- The frame of a descriptor at a data width (R54, R59, R60, R70): each field keeps its low bits (R78), and DATA is
masked with DMASK, so that its low 16 - N bits are pad bits at 0. `BitVec.ofNat k` is the mask of R78 for a k-bit field. -/
def encodeFrame (w : Width) (d : RawDesc) : Frame :=
  packF16 (BitVec.ofNat 1 d.rw) (BitVec.ofNat 4 d.cmd) (BitVec.ofNat 4 d.addr) (BitVec.ofNat 16 d.data &&& dmask w)
    (BitVec.ofNat 4 d.mode)

/-- ENCODE(v, d) (R70): the frame, or `none` for UnknownVersion (R79). -/
def encodeDesc (c : Config) (v : Nat) (d : RawDesc) : Option Frame :=
  match widthOf c v with
  | some w => some (encodeFrame w d)
  | none => none

/-- The port's descriptor as ENCODE's operand: unsigned integers (R13, R70). -/
def descOperand (d : Desc) : RawDesc :=
  { rw := d.rw.toNat, cmd := d.cmd.toNat, addr := d.addr.toNat, data := d.data.toNat, mode := d.mode.toNat }

/-- The instruction of the frame format that carries a descriptor at a data width (R55 to R57, R59): its N data bits are
the high N bits of DATA. -/
def frameInstr (w : Width) (d : Desc) : Instr :=
  match w with
  | .w16 => .frameF16 d.rw d.cmd d.addr d.data d.mode
  | .w14 => .frameF14 d.rw d.cmd d.addr (d.data.extractLsb' 2 14) d.mode
  | .w12 => .frameF12 d.rw d.cmd d.addr (d.data.extractLsb' 4 12) d.mode

/-! ## Transport calls -/

/-- A call as an operation's rule names it, before the context is added. -/
inductive CallReq where
  | shift (F : Frame)
  | setClr (level : BitVec 1)
  | setLdac (level : BitVec 1)
  | setSelect (level : BitVec 1)
deriving DecidableEq, Repr

/-- R102, R103, R104: the call with its arguments, the context last; a shift call passes the 4 frame bytes and 4. -/
def CallReq.withCtx (r : CallReq) (ctx : Nat) : TCall :=
  match r with
  | .shift F => .shift (frameBytes F) 4 ctx
  | .setClr level => .setClr level ctx
  | .setLdac level => .setLdac level ctx
  | .setSelect level => .setSelect level ctx

/-- The context argument of a call. -/
def TCall.ctx : TCall → Nat
  | .shift _ _ ctx => ctx
  | .setClr _ ctx => ctx
  | .setLdac _ ctx => ctx
  | .setSelect _ ctx => ctx

/-! ## Control lines -/

/-- R111: a level argument of 1 means high, and 0 means low. -/
def levelOf (b : BitVec 1) : Level := if b = 1#1 then .high else .low

/-- The transport's `n`-th answer: the script's while it lasts, then a free value (R112, R113). -/
def Env.answer (e : Env) (n : Nat) : Answer := (e.script[n]?).getD (Config.transportAnswer n)

/-- The level of the line a set call drives, after answer `n` to it: the level asked for when it has returned OK (R111);
a free value while it is outstanding or after it has failed (R137). -/
def setLevel (level : BitVec 1) (ans : Answer) (n : Nat) : Level :=
  match ans with
  | .returned st => if st = 0x00#8 then levelOf level else Config.lineLevel n
  | .pending => Config.lineLevel n

/-- The lines after answer `n` to a call. A set call moves its own line only. A shift call moves SYNC only: the transport
deasserts it (high) after the call (R106), and a call that is outstanding leaves it a free value. -/
def linesAfter (c : TCall) (ans : Answer) (n : Nat) (l : Lines) : Lines :=
  match c with
  | .shift _ _ _ => { l with sync := match ans with | .returned _ => .high | .pending => Config.lineLevel n }
  | .setClr level _ => { l with clr := setLevel level ans n }
  | .setLdac level _ => { l with ldac := setLevel level ans n }
  | .setSelect level _ => { l with sync := setLevel level ans n }

end Sys2Proof.Machine
end

