-- ==== Sys2Proof/Machine/Ops.lean ====
section
/-! DEFINITION. The operations every instruction shares: DMEM (R33), what other agents do, the transport's calls (R101,
R112, R113), the effects an operation's rule is made of (`Act`), running them in order (R44), accepting a request (R82)
and raising a status (R17). The block has no trap: raising a status is all that an error does (R125). -/

namespace Sys2Proof.Machine

/-! ## DMEM -/

/-- The byte written last at an address since power-on, if there is one. -/
def dmemFind : List Host.Cell → Nat → Option Byte
  | [], _ => none
  | (k, v) :: m, a => if k = a then some v else dmemFind m a

/-- What a reader of DMEM gets: the byte written last, or the free value of a byte nothing has written (R31). -/
def dmemRead (m : List Host.Cell) (a : Nat) : Byte := (dmemFind m a).getD (Config.dmemAtReset a)

/-- `MemWrite(a, 1, b)` (R16, R38): one byte, and nothing else (R39). -/
def dmemWrite : List Host.Cell → Nat → Byte → List Host.Cell
  | [], a, b => [(a, b)]
  | (k, v) :: m, a, b =>
    if a < k then (a, b) :: (k, v) :: m else if a = k then (a, b) :: m else (k, v) :: dmemWrite m a b

/-- The canonical form: addresses strictly rising, and all of them in the address space (R33). No entry can equal what
an unlisted address reads as: that is a free value. -/
abbrev dmemWf (addrW : Nat) (m : List Host.Cell) : Prop :=
  (m.map Prod.fst).Pairwise (· < ·) ∧ ∀ cell ∈ m, cell.1 < 2 ^ addrW

/-- A host's 32-bit read of 4 bytes, most significant byte first (R36). -/
def dmemReadBE (m : List Host.Cell) (a : Nat) : Frame :=
  frameOfBytes (dmemRead m a) (dmemRead m (a + 1)) (dmemRead m (a + 2)) (dmemRead m (a + 3))

/-- A host's 32-bit read of 4 bytes, least significant byte first (R36). -/
def dmemReadLE (m : List Host.Cell) (a : Nat) : Frame :=
  frameOfBytes (dmemRead m (a + 3)) (dmemRead m (a + 2)) (dmemRead m (a + 1)) (dmemRead m a)

/-! ## The phase -/

/-- The operation that can go on: the block is BUSY and waits for no call. -/
def Block.running (b : Block) : Option InFlight :=
  match b.phase with
  | .busy f => match f.pending with | none => some f | some _ => none
  | .idle => none

/-- The call that a BUSY block waits for. -/
def Block.outstanding (b : Block) : Option TCall :=
  match b.phase with
  | .busy f => f.pending
  | .idle => none

/-- The range that a BUSY FORMAT writes (R45), as a test on an address. -/
def Block.formatting (b : Block) (a : Nat) : Bool :=
  match b.phase with
  | .busy f =>
    match f.op with
    | .format q => decide (q.destBase ≤ a ∧ a < q.destBase + q.length)
    | _ => false
  | .idle => false

/-! ## Reset and the other agents -/

/-- The reset event (R134, R135): S and B take their reset values and nothing else moves. The operation is abandoned: it
sends no response, its effects stay made, and a call it was waiting for is left an orphan. The trace starts empty again
(R31); what was in it moves to `earlier`. -/
def State.resetPulse (s : State) : State :=
  { s with
    session := Session.reset
    block := Block.reset
    trace := []
    earlier := s.earlier ++ s.trace
    env := { s.env with orphans := s.env.orphans ++ s.block.outstanding.toList } }

/-- R135: "A transport call that returns after the reset has no effect on the block". It is recorded with the earlier
calls, and the line it drives gets its level. -/
def State.lateReturn (s : State) (status : Byte) : State :=
  match s.env.orphans with
  | [] => s
  | c :: cs =>
    { s with
      earlier := s.earlier ++ [.ret status]
      lines := linesAfter c (.returned status) s.env.polls s.lines
      env := { s.env with polls := s.env.polls + 1, orphans := cs } }

/-- What a read by another agent gives: any byte in the range of a FORMAT that is BUSY (R45), else what DMEM holds. -/
def State.otherRead (s : State) (a : Nat) : Byte :=
  if s.block.formatting a then Config.racingByte s.env.seen.length else dmemRead s.dmem a

/-- One outside event. A write into the range of a BUSY FORMAT is kept or overwritten as its moment falls after or before
the block's own write of that byte (R45). -/
def State.outside (s : State) : EnvAct → State
  | .reset => s.resetPulse
  | .read a => { s with env := { s.env with seen := s.env.seen ++ [(a, s.otherRead a)] } }
  | .write a b => { s with dmem := dmemWrite s.dmem a b }
  | .lateReturn status => s.lateReturn status

/-- Let the events happen that are due. -/
def deliverEvents : List EnvEvent → State → State
  | [], s => { s with env := { s.env with events := [] } }
  | e :: es, s =>
    if e.delay = 0 then deliverEvents es (s.outside e.act) else { s with env := { s.env with events := e :: es } }

/-- Let the outside events happen that are due. -/
def State.deliver (s : State) : State := deliverEvents s.env.events s

/-- The next outside event comes one effect nearer. -/
def tickEvents : List EnvEvent → List EnvEvent
  | [] => []
  | e :: es => { e with delay := e.delay - 1 } :: es

/-- One effect of the block (or one idle step) has gone by. -/
def State.tick (s : State) : State := { s with env := { s.env with events := tickEvents s.env.events } }

/-- The first event, if there is one, whose DMEM address does not exist (R33). -/
def badAddress (addrW : Nat) : List EnvEvent → Option Nat
  | [] => none
  | e :: es =>
    match e.act with
    | .read a => if a < 2 ^ addrW then badAddress addrW es else some a
    | .write a _ => if a < 2 ^ addrW then badAddress addrW es else some a
    | .reset => badAddress addrW es
    | .lateReturn _ => badAddress addrW es

/-! ## The effects of an operation -/

/-- The effects that the pseudocode of R84, R88, R93 and R99 is made of, in the order the rule lists them (R44).
`commit` is INIT's write of all seven session fields at once (R86). `callT` is `s <- call T.f(...)`. `orAcc` is
`B.acc <- B.acc | s`. `store` is a `MemWrite` of one byte. The last three are `return`; `respondAcc`, which returns B.acc, also
clears it, for the block keeps no copy of a status it has sent (R26, log entry 19). -/
inductive Act where
  | commit (session : Session)
  | clearAcc
  | callT (r : CallReq)
  | orAcc
  | store (a : Nat) (b : Byte)
  | respond (status : Byte)
  | respondRet
  | respondAcc
deriving DecidableEq, Repr

/-- The block goes on to the next position of its rule (B.step). -/
def State.proceed (s : State) (f : InFlight) : State :=
  { s with block := { s.block with phase := .busy { f with step := f.step + 1, pending := none } } }.tick

/-- `return st` (R17, R82): the status goes out on the response port, and the block is IDLE. -/
def State.finish (s : State) (st : Byte) : State :=
  { s with
    block := { s.block with phase := .idle }
    io := { s.io with responses := s.io.responses ++ [st] } }.tick

/-- Look whether the outstanding call `c` of the operation `f` has returned (R112, R113). If it has, its status is
recorded in the trace (R101) and the operation can go on; if not, the block stays BUSY. -/
def State.poll (s : State) (f : InFlight) (c : TCall) : State :=
  let n := s.env.polls
  let ans := s.env.answer n
  let s := { s with lines := linesAfter c ans n s.lines, env := { s.env with polls := n + 1 } }
  match ans with
  | .returned st => { s with trace := s.trace ++ [TraceEvent.ret st] }.proceed { f with ret := st }
  | .pending => { s with block := { s.block with phase := .busy { f with pending := some c } } }.tick

/-- `call T.f(args)` (R16, R101): the call, with the context S.ctx of this moment (R104), goes into the trace, and the
block waits for it. -/
def State.callTransport (s : State) (f : InFlight) (r : CallReq) : State :=
  let c := r.withCtx s.session.ctx
  { s with trace := s.trace ++ [TraceEvent.call c] }.poll f c

/-- One effect of the running operation `f`. -/
def State.perform (s : State) (f : InFlight) : Act → State
  | .commit session => { s with session := session }.proceed f
  | .clearAcc => { s with block := { s.block with acc := statusOk } }.proceed f
  | .callT r => s.callTransport f r
  | .orAcc => { s with block := { s.block with acc := orStatus s.block.acc f.ret } }.proceed f
  | .store a b => { s with dmem := dmemWrite s.dmem a b }.proceed f
  | .respond st => s.finish st
  | .respondRet => s.finish f.ret
  | .respondAcc => { s with block := { s.block with acc := statusOk } }.finish s.block.acc

/-- Run effects one after the other, outside events coming in between as they fall due. It stops where the operation
waits for a transport call, and where a reset has abandoned it. -/
def runActs : List Act → State → State
  | [], s => s
  | a :: as, s =>
    let s := s.deliver
    match s.block.running with
    | some f => runActs as (s.perform f a)
    | none => s

/-! ## Requests -/

/-- Acceptance (R82): B.phase <- BUSY and B.op <- q, at the start of the operation's rule. It is an effect of its own: a
reset can land after it and before the first effect of the rule (R135, log entry 10). -/
def State.accept (s : State) (i : Instr) : State :=
  { s with block := { s.block with phase := .busy { op := i, step := 0, ret := statusOk, pending := none } } }.tick

/-- `raise X` is `return X` (R17): the effects of an operation whose check fails. -/
def raise (status : Byte) : List Act := [.respond status]

/-- Issue a request (R82): it is accepted only when the block is IDLE (R140), and its effects are made. -/
def State.issue (s : State) (i : Instr) (effects : Except Refusal (List Act)) : Host.Outcome State Fault Refusal :=
  match s.block.phase with
  | .busy _ => .refused .requestWhileBusy
  | .idle =>
    match effects with
    | .error r => .refused r
    | .ok acts => .next (runActs acts (s.accept i))

end Sys2Proof.Machine
end

