-- ==== Sys2Proof/Machine/FormatOp.lean ====
section
/-! DEFINITION. FORMAT (41_session_ops.md R93 to R98). -/

namespace Sys2Proof.Machine

/-- The byte writes of FORMAT: DMEM[dest + j] = byte j mod 4 of the frame, j ascending (R94, R95). -/
def formatStores (F : Frame) (dest length : Nat) : List Act :=
  (List.range length).map fun j => .store (dest + j) (frameByte F (j % 4))

/-- The effects of FORMAT in a session: the checks in the order of R93, the range check after them (R41), the frame of the
session's variant encoded once, its byte writes, and OK (R96). `none` from ENCODE is S.variant > 2 (R79, R97). -/
def formatActs (c : Config) (ses : Session) (q : FormatArgs) : Except Refusal (List Act) :=
  if q.hv = false then .ok (raise statusInvalidArgument)
  else if q.dv = false then .ok (raise statusInvalidArgument)
  else
    match encodeDesc c ses.variant.toNat (descOperand q.desc) with
    | none => .ok (raise statusUnknownVersion)
    | some F =>
      if q.destBase + q.length > 2 ^ c.addrW then .error .rangePastTop
      else .ok (formatStores F q.destBase q.length ++ [.respond statusOk])

/-- FORMAT (R93). -/
def execFormat (q : FormatArgs) (s : State) : Host.Outcome State Fault Refusal :=
  s.issue (.format q) (formatActs s.cfg s.session q)

end Sys2Proof.Machine
end

