-- ==== Sys2Proof/Machine/FrameOps.lean ====
section
/-! DEFINITION. The frame formats by themselves: ENCODE at one data width (40_frame_encoder.md R70, R75 to R77). The
encoder is pure (R19, R80): it returns the 4 bytes and writes no state, so it runs whether the block is IDLE or BUSY. -/

namespace Sys2Proof.Machine

/-- ENCODE at a width returns its 4 bytes (R70). Nothing of S, B, DMEM, the trace or the lines changes (R80). -/
def State.emitFrame (s : State) (w : Width) (d : RawDesc) : State :=
  { s with io := { s.io with encoded := s.io.encoded ++ [frameBytes (encodeFrame w d)] } }

/-- FRAME_F16 (R55, R75): every bit of DATA reaches the frame. -/
def execFrameF16 (rw : BitVec 1) (cmd addr : BitVec 4) (data : BitVec 16) (mode : BitVec 4) (s : State) :
    Host.Outcome State Fault Refusal :=
  .next (s.emitFrame .w16 (descOperand { rw := rw, cmd := cmd, addr := addr, data := data, mode := mode }))

/-- FRAME_F14 (R56, R76): the format's 14 data bits are DATA[15:2]. -/
def execFrameF14 (rw : BitVec 1) (cmd addr : BitVec 4) (data : BitVec 14) (mode : BitVec 4) (s : State) :
    Host.Outcome State Fault Refusal :=
  .next (s.emitFrame .w14 (descOperand { rw := rw, cmd := cmd, addr := addr, data := data ++ 0#2, mode := mode }))

/-- FRAME_F12 (R57, R77): the format's 12 data bits are DATA[15:4]. -/
def execFrameF12 (rw : BitVec 1) (cmd addr : BitVec 4) (data : BitVec 12) (mode : BitVec 4) (s : State) :
    Host.Outcome State Fault Refusal :=
  .next (s.emitFrame .w12 (descOperand { rw := rw, cmd := cmd, addr := addr, data := data ++ 0#4, mode := mode }))

end Sys2Proof.Machine
end

