-- ==== Sys2Proof/Machine/InitOp.lean ====
section
/-! DEFINITION. INIT (41_session_ops.md R84 to R87). -/

namespace Sys2Proof.Machine

/-- The session a successful INIT commits: all seven fields (R86). -/
def initSession (q : InitArgs) : Session :=
  { variant := BitVec.ofNat 2 q.variant, tp := true, capShift := q.capShift, capSel := q.capSel,
    capLdac := q.capLdac, capClr := q.capClr, ctx := q.ctx }

/-- One priming call: made only when its capability bit is 1, and its status is ORed into B.acc (R87). -/
def primeActs (cap : Bool) (r : CallReq) : List Act := if cap then [.callT r, .orAcc] else []

/-- The effects of INIT: the checks in the order of R85, the commit (R86), then the priming calls in the fixed order
CLR high, LDAC low, SYNC high (R87). -/
def initActs (q : InitArgs) : List Act :=
  if q.hv = false then raise statusInvalidArgument
  else if q.tp = false then raise statusInvalidArgument
  else if q.variant > 2 then raise statusUnknownVersion
  else
    [.commit (initSession q), .clearAcc]
      ++ primeActs q.capClr (.setClr 1)
      ++ primeActs q.capLdac (.setLdac 0)
      ++ primeActs q.capSel (.setSelect 1)
      ++ [.respondAcc]

/-- INIT (R84). -/
def execInit (q : InitArgs) (s : State) : Host.Outcome State Fault Refusal := s.issue (.init q) (.ok (initActs q))

end Sys2Proof.Machine
end

