-- ==== Sys2Proof/Machine/RsvdOp.lean ====
section
/-! DEFINITION. RSVD, the reserved operation (41_session_ops.md R99). -/

namespace Sys2Proof.Machine

/-- The effects of RSVD: `raise Error` (R99). -/
def rsvdActs : List Act := raise statusError

/-- RSVD (R99). -/
def execRsvd (s : State) : Host.Outcome State Fault Refusal := s.issue .rsvd (.ok rsvdActs)

end Sys2Proof.Machine
end

