-- ==== Sys2Proof/Machine/WriteOp.lean ====
section
/-! DEFINITION. WRITE (41_session_ops.md R88 to R92). -/

namespace Sys2Proof.Machine

/-- The effects of WRITE in a session: the checks in the order of R88, the frame of the session's variant, one shift call
(R89), and the call's own status as the response (R90). `none` from ENCODE is S.variant > 2 (R79). -/
def writeActs (c : Config) (ses : Session) (q : WriteArgs) : List Act :=
  if q.hv = false then raise statusInvalidArgument
  else if ses.tp = false then raise statusInvalidArgument
  else if ses.capShift = false then raise statusInvalidArgument
  else
    match encodeDesc c ses.variant.toNat (descOperand q.desc) with
    | none => raise statusUnknownVersion
    | some F => [.callT (.shift F), .respondRet]

/-- WRITE (R88). -/
def execWrite (q : WriteArgs) (s : State) : Host.Outcome State Fault Refusal :=
  s.issue (.write q) (.ok (writeActs s.cfg s.session q))

end Sys2Proof.Machine
end

