-- ==== Sys2Proof/Machine/Dispatch.lean ====
section
/-! DEFINITION. One arm per instruction, each a direct call of its meaning. -/

namespace Sys2Proof.Machine

def exec (i : Instr) (s : State) : Host.Outcome State Fault Refusal :=
  match i with
  | .init q => Sys2Proof.Machine.execInit q s
  | .write q => Sys2Proof.Machine.execWrite q s
  | .format q => Sys2Proof.Machine.execFormat q s
  | .rsvd => Sys2Proof.Machine.execRsvd s
  | .frameF16 rw cmd addr data mode => Sys2Proof.Machine.execFrameF16 rw cmd addr data mode s
  | .frameF14 rw cmd addr data mode => Sys2Proof.Machine.execFrameF14 rw cmd addr data mode s
  | .frameF12 rw cmd addr data mode => Sys2Proof.Machine.execFrameF12 rw cmd addr data mode s

end Sys2Proof.Machine
end

