-- ==== Sys2Proof/Machine/Resume.lean ====
section
/-! DEFINITION. An operation that is already BUSY goes on (R27, R113), and taking the next item from the input (R82). -/

namespace Sys2Proof.Machine

/-- The effects of the operation B.op in the state it runs in. A frame is no request and is never BUSY. -/
def actsOf (i : Instr) (s : State) : Except Refusal (List Act) :=
  match i with
  | .init q => .ok (initActs q)
  | .write q => .ok (writeActs s.cfg s.session q)
  | .format q => formatActs s.cfg s.session q
  | .rsvd => .ok rsvdActs
  | .frameF16 _ _ _ _ _ => .ok []
  | .frameF14 _ _ _ _ _ => .ok []
  | .frameF12 _ _ _ _ _ => .ok []

/-- Look at the outstanding call, if there is one; where the operation can go on, make the effects that are left: those
from position B.step on. -/
def State.resume (s : State) (f : InFlight) : Host.Outcome State Fault Refusal :=
  let s := match f.pending with | some c => s.poll f c | none => s
  match s.block.running with
  | none => .next s
  | some g =>
    match actsOf g.op s with
    | .error r => .refused r
    | .ok acts => .next (runActs (acts.drop g.step) s)

/-- The state after the first item has been taken from the input. -/
def State.dropItem (s : State) : State := { s with io := { s.io with port := s.io.port.tail } }

/-- What the step fetches: the first item at the input. -/
def State.fetch (s : State) : Option PortItem := s.io.port.head?

/-- `s` with a table word as the next item, and with nothing in the way of fetching it: the block IDLE, no outside event
to come. -/
def State.placeWord (s : State) (nbits w : Nat) : State :=
  { s with
    block := { s.block with phase := .idle }
    io := { s.io with port := tableItem s.cfg nbits w :: s.io.port }
    env := { s.env with events := [] } }

end Sys2Proof.Machine
end

