-- ==== Sys2Proof/Machine/Step.lean ====
section
/-! DEFINITION. One step of the machine. -/

namespace Sys2Proof.Machine

/-- One step. The outside events that are due happen first. A BUSY block looks at the call it waits for and goes on if it
has returned (R113); the input waits (R82, R140). An IDLE block takes the first item from the input, decodes it and runs
it; with nothing there it waits. -/
def step (s : State) : Host.Outcome State Fault Refusal :=
  match badAddress s.cfg.addrW s.env.events with
  | some a => .fault (.noSuchAddress a)
  | none =>
    let s := s.deliver
    match s.block.phase with
    | .busy f => s.resume f
    | .idle =>
      match s.fetch with
      | none => .next s.tick
      | some item =>
        match decode s.cfg item with
        | .error e => .refused (.undecodable e)
        | .ok i => exec i s.dropItem

/-- `s` with a word of spec/opcode_table.json as the next item the step takes from the input. -/
def State.withFetchWord (s : State) (nbits w : Nat) : State := s.placeWord nbits w

end Sys2Proof.Machine
end

