-- ==== Sys2Proof/Machine/Wire.lean ====
section
/-! DEFINITION. What the transport must put on the serial line for the calls in a trace (42_spi_serializer.md R105 to
R107). These are the transport's obligations, which a model "may only assume": no step uses them. -/

namespace Sys2Proof.Machine

/-- The bits of a byte in the order they go out: bit 7 first (R35, R105). -/
def serialByte (b : Byte) : List Bool := (List.range 8).map fun i => b.getLsbD (7 - i)

/-- The bits of a shift call in the order they go out: "MSB-first per byte, byte order as given" (R105). -/
def serial (bytes : List Byte) : List Bool := bytes.flatMap serialByte

/-- SERIAL(F): F[31] first, F[0] last (R105). -/
def serialFrame (F : Frame) : List Bool := (List.range 32).map fun i => F.getLsbD (31 - i)

/-- One transfer on the serial line: the levels of SYNC just before its bits, while they go out and just after them, and the
bits. -/
structure Transfer where
  before : Level
  during : Level
  after : Level
  bits : List Bool
deriving DecidableEq, Repr

/-- The transfer a call asks for. A shift call: its bytes and nothing else (R107), with SYNC low while they go out and high
before and after (R106). A set call: none. -/
def transferOf : TCall → Option Transfer
  | .shift bytes _ _ => some { before := .high, during := .low, after := .high, bits := serial bytes }
  | .setClr _ _ => none
  | .setLdac _ _ => none
  | .setSelect _ _ => none

/-- The transfers that the calls of a trace ask for, in order. -/
def wire (t : List TraceEvent) : List Transfer :=
  t.filterMap fun e => match e with | .call c => transferOf c | .ret _ => none

end Sys2Proof.Machine
end

