-- ==== Sys2Proof/Safety.lean ====
section
/-! DEFINITION. The terms claims use: when the session is configured (R32), what the environment must do (R109, R110,
R136, R142), which calls the block may make (R101 to R103), and the invariant that every step keeps. -/

namespace Sys2Proof

/-- Two request records agree on the fields that R51 says their operation uses. -/
def Request.agree (q q' : Request) : Prop :=
  q.op = q'.op ∧
    (q.op = 0b00#2 →
      q.hv = q'.hv ∧ q.variant = q'.variant ∧ q.tp = q'.tp ∧ q.capShift = q'.capShift ∧ q.capSel = q'.capSel ∧
        q.capLdac = q'.capLdac ∧ q.capClr = q'.capClr ∧ q.ctx = q'.ctx) ∧
    (q.op = 0b01#2 → q.hv = q'.hv ∧ q.desc = q'.desc) ∧
    (q.op = 0b10#2 →
      q.hv = q'.hv ∧ q.dv = q'.dv ∧ q.destBase = q'.destBase ∧ q.length = q'.length ∧ q.desc = q'.desc)

end Sys2Proof

namespace Sys2Proof.Machine

/-! ## The session and the environment -/

/-- R32: S.tp = 1 and S.variant is 0, 1 or 2. -/
abbrev Session.configured (ses : Session) : Prop := ses.tp = true ∧ ses.variant.toNat ≤ 2

/-- The block can take a request, and no outside event is to come: no reset and no other agent's access to DMEM falls
into what is looked at. -/
abbrev State.ready (s : State) : Prop := s.block.phase = .idle ∧ s.env.events = []

/-- The transport's next answers are returns of these statuses (the premise R142 asks for). -/
abbrev State.returnsNext (s : State) (sts : List Byte) : Prop :=
  ∀ k st, sts[k]? = some st → s.env.answer (s.env.polls + k) = .returned st

/-- The board's duties of R109 and R110: without set_ldac LDAC is tied low, without set_clr CLR is tied high. -/
abbrev State.boardTies (s : State) : Prop :=
  (s.session.capLdac = false → s.lines.ldac = .low) ∧ (s.session.capClr = false → s.lines.clr = .high)

/-- Is the call a shift call? -/
def TCall.isShift : TCall → Bool
  | .shift _ _ _ => true
  | .setClr _ _ => false
  | .setLdac _ _ => false
  | .setSelect _ _ => false

/-- A shift call is out: the block waits for one, or a reset has abandoned one that has not returned. -/
def State.shifting (s : State) : Bool := s.block.outstanding.any TCall.isShift || s.env.orphans.any TCall.isShift

/-- The transport's duty of R106, R108 and R138: outside its shift calls SYNC is deasserted, at the high level. So SYNC is
high before a shift call as well as after it. -/
abbrev State.syncRests (s : State) : Prop := s.shifting = false → s.lines.sync = .high

/-- R136: the steps that must be done before the rules describe a working link for WRITE, with the transport holding SYNC
high until the first transfer (R106, R138). -/
abbrev State.linkReady (s : State) : Prop :=
  s.boardTies ∧ s.syncRests ∧ s.session.configured ∧ s.session.capShift = true

/-- Is the outside event a reset? -/
def EnvAct.isReset : EnvAct → Bool
  | .reset => true
  | .read _ => false
  | .write _ _ => false
  | .lateReturn _ => false

/-- Is the outside event another agent's write into DMEM? -/
def EnvAct.isWrite : EnvAct → Bool
  | .reset => false
  | .read _ => false
  | .write _ _ => true
  | .lateReturn _ => false

/-- No reset is among the outside events to come; other agents' accesses and late returns may be. -/
abbrev State.noReset (s : State) : Prop := ∀ e ∈ s.env.events, e.act.isReset = false

/-- No write into DMEM by another agent is among the outside events to come. -/
abbrev State.noOtherWrite (s : State) : Prop := ∀ e ∈ s.env.events, e.act.isWrite = false

/-- The response of a request that fails a check: its status goes out and nothing else changes (R83, R125). -/
def State.reply (s : State) (status : Byte) : State :=
  { s with io := { s.io with responses := s.io.responses ++ [status] } }

/-! ## Transport calls -/

/-- INIT's priming calls in their order: CLR high, LDAC low, SYNC high, each only with its capability (R87). -/
def primingCalls (q : InitArgs) : List TCall :=
  (if q.capClr then [TCall.setClr 1 q.ctx] else []) ++ (if q.capLdac then [TCall.setLdac 0 q.ctx] else []) ++
    (if q.capSel then [TCall.setSelect 1 q.ctx] else [])

/-- The trace of calls that return these statuses, each before the next call is made (R44, R101). -/
def callLog : List TCall → List Byte → List TraceEvent
  | c :: cs, st :: sts => .call c :: .ret st :: callLog cs sts
  | _, _ => []

/-- The calls the block may make: a shift of 4 bytes with the length 4 (R102), and set calls with the levels of R103. -/
def TCall.allowed : TCall → Prop
  | .shift bytes length _ => bytes.length = 4 ∧ length = 4
  | .setClr level _ => level = 1
  | .setLdac level _ => level = 0
  | .setSelect level _ => level = 1

/-- Every call of a trace is one that the block may make. -/
def callsAllowed (t : List TraceEvent) : Prop := ∀ c, TraceEvent.call c ∈ t → c.allowed

/-! ## The invariant -/

/-- The session registers hold what R32 says they can: the reset values, or those of a successful INIT. -/
abbrev Session.legal (c : Config) (ses : Session) : Prop :=
  ses = Session.reset ∨ (ses.configured ∧ ses.ctx < 2 ^ c.ctxW)

/-- While the block is BUSY between two steps it waits for a call that it has made: the call stands at position B.step of
its operation's rule, with the session's context (R27, R104), and the session is configured. -/
def State.waiting (s : State) : Prop :=
  match s.block.phase with
  | .idle => True
  | .busy f =>
    s.session.configured ∧ f.op.wf s.cfg = true ∧
      ∃ r acts, f.pending = some (r.withCtx s.session.ctx) ∧ actsOf f.op s = .ok acts ∧ acts[f.step]? = some (.callT r)

/-- B.acc is used by INIT alone (R27): anything but 0x00 stands there only while an INIT is BUSY, and no copy of a status
outlives its response (R26, log entry 19). -/
def State.accInUse (s : State) : Prop := s.block.acc ≠ 0x00 → ∃ f q, s.block.phase = .busy f ∧ f.op = .init q

/-- The invariant of the machine. -/
structure State.Inv (s : State) : Prop where
  cfg : s.cfg.wf
  session : s.session.legal s.cfg
  dmem : dmemWf s.cfg.addrW s.dmem
  block : s.waiting
  acc : s.accInUse

end Sys2Proof.Machine
end

