-- ==== Sys2Proof/Certificates/Slice0/Obligations.lean ====
section
/-! DEFINITION. The statements for the provers, in the order of the spec's files. `s.ready` says that the block is IDLE
and that no outside event (a reset, another agent's access to DMEM) is to come; `s.returnsNext sts` says what the
transport answers next; that answers are counted, one for each look at a call, is the model's (log entry 6). Where a
statement gives the next state as `{ s with … }`, every field it does not name is unchanged: that is its frame. -/

open Sys2Proof Sys2Proof.Machine

/-! ## Encoding of requests and frames -/

/-- Decoding an encoded instruction gives it back, for every instruction that fits the ports (R51, R52, R55 to R57). The
bit layout of a request record beyond q.op is the model's (log entry 2). -/
def Obligations.DecodeOfEncodedInstruction : Prop :=
  ∀ (c : Config) (i : Instr), i.wf c = true → decode c (encode c i) = .ok i

/-- Encoding a decoded frame gives its bytes back: a frame that is read has no bit that its instruction does not hold. -/
def Obligations.EncodeOfDecodedFrame : Prop :=
  ∀ (c : Config) (w : Width) (b0 b1 b2 b3 : Byte) (i : Instr),
    decode c (.frame w [b0, b1, b2, b3]) = .ok i → encode c i = .frame w [b0, b1, b2, b3]

/-- R53: two requests that agree on the fields their operation uses give the same step, whatever the others hold. -/
def Obligations.UnusedRequestFieldsAreIgnored : Prop :=
  ∀ (s : State) (rest : List PortItem) (q q' : Request), s.ready → q.wf s.cfg → q'.wf s.cfg → q.agree q' →
    step { s with io := { s.io with port := .request (q.toBytes s.cfg) :: rest } } =
      step { s with io := { s.io with port := .request (q'.toBytes s.cfg) :: rest } }

/-- R68: a word is read as a frame of a format exactly when its don't-care bits and the format's pad bits are 0, and then
every field is where R68 says. -/
def Obligations.FrameIsReadOnlyWhenWellFormed : Prop :=
  (∀ (w : Width) (F : Frame),
      (∃ i, decodeFrame w F = .ok i) ↔
        F.extractLsb' 29 3 = 0#3 ∧ (w = .w14 → F.extractLsb' 4 2 = 0#2) ∧ (w = .w12 → F.extractLsb' 4 4 = 0#4)) ∧
    (∀ (F : Frame) (i : Instr), decodeFrame .w16 F = .ok i →
      i = .frameF16 (F.extractLsb' 28 1) (F.extractLsb' 24 4) (F.extractLsb' 20 4) (F.extractLsb' 4 16)
        (F.extractLsb' 0 4)) ∧
    (∀ (F : Frame) (i : Instr), decodeFrame .w14 F = .ok i →
      i = .frameF14 (F.extractLsb' 28 1) (F.extractLsb' 24 4) (F.extractLsb' 20 4) (F.extractLsb' 6 14)
        (F.extractLsb' 0 4)) ∧
    (∀ (F : Frame) (i : Instr), decodeFrame .w12 F = .ok i →
      i = .frameF12 (F.extractLsb' 28 1) (F.extractLsb' 24 4) (F.extractLsb' 20 4) (F.extractLsb' 8 12)
        (F.extractLsb' 0 4))

/-- R68: ENCODE produces only well-formed frames, and a port's descriptor reads back as the fields of its frame. -/
def Obligations.EncodedDescriptorReadsBack : Prop :=
  ∀ (w : Width) (d : Desc), decodeFrame w (encodeFrame w (descOperand d)) = .ok (frameInstr w d)

/-- Words written out from R52 and R55 to R57 decode to the instructions they stand for. That `decodeTableWord` reads the
three 32-bit words in the formats F16, F14 and F12 is the model's choice: a frame does not say its format (R66), and a bare
word is read in the narrowest format that fits (log entry 4). -/
def Obligations.WordsOfTheSpecDecode : Prop :=
  decodeTableWord 8 0b11 = some .rsvd ∧
    decodeTableWord 32 0b00010010001101000101011001111000 = some (.frameF16 1 0x2 0x3 0x4567 0x8) ∧
    decodeTableWord 32 0b00000010000100010010001101000101 = some (.frameF14 0 0x2 0x1 0b00010010001101 0x5) ∧
    decodeTableWord 32 0b00000010000100010010001100000101 = some (.frameF12 0 0x2 0x1 0x123 0x5) ∧
    decodeFrame .w16 0b00100000000000000000000000000000 = .error .dontCareBits ∧
    decodeFrame .w14 0b00000000000000000000000000010000 = .error .padBits ∧
    decodeFrame .w12 0b00000000000000000000000010000000 = .error .padBits

/-! ## The frame encoder -/

/-- R69: the variant table, with the default tag map. -/
def Obligations.VariantTable : Prop :=
  ∀ c : Config, c.tags = TagMap.default →
    widthOf c 0 = some .w16 ∧ widthOf c 1 = some .w14 ∧ widthOf c 2 = some .w12 ∧ (∀ v, 2 < v → widthOf c v = none) ∧
      (dataBits .w16 = 16 ∧ dmask .w16 = 0xFFFF#16) ∧ (dataBits .w14 = 14 ∧ dmask .w14 = 0xFFFC#16) ∧
      (dataBits .w12 = 12 ∧ dmask .w12 = 0xFFF0#16)

/-- R70: ENCODE(v, d) is the pseudocode's formula, for a descriptor of unsigned integers of any size and whatever width
the machine's tag map gives v; and its worked example. -/
def Obligations.EncoderComputesTheMaskedShiftFormula : Prop :=
  ∀ (c : Config) (v : Nat) (d : RawDesc),
    (2 < v → encodeDesc c v d = none) ∧
      (v ≤ 2 → ∃ w F, widthOf c v = some w ∧ encodeDesc c v d = some F ∧
        F.toNat =
          ((d.rw &&& 0x1) <<< 28) ||| ((d.cmd &&& 0xF) <<< 24) ||| ((d.addr &&& 0xF) <<< 20) |||
            (((d.data &&& 0xFFFF) &&& (dmask w).toNat) <<< 4) ||| (d.mode &&& 0xF) ∧
        frameBytes F = [F.extractLsb' 24 8, F.extractLsb' 16 8, F.extractLsb' 8 8, F.extractLsb' 0 8]) ∧
      (c.tags = TagMap.default →
        (encodeDesc c 0 { rw := 0, cmd := 0x3, addr := 0x0, data := 0x8000, mode := 0x0 }).map frameBytes =
          some [0x03, 0x08, 0x00, 0x00])

/-- R71 to R74: the four byte rules, for every data width. -/
def Obligations.FrameBytesFollowTheByteRules : Prop :=
  ∀ (w : Width) (d : RawDesc),
    (frameByte (encodeFrame w d) 0).toNat = ((d.rw &&& 0x1) <<< 4) ||| (d.cmd &&& 0xF) ∧
      (frameByte (encodeFrame w d) 0).extractLsb' 5 3 = 0#3 ∧
      frameByte (encodeFrame w d) 1 =
        BitVec.ofNat 4 d.addr ++ (BitVec.ofNat 16 d.data &&& dmask w).extractLsb' 12 4 ∧
      frameByte (encodeFrame w d) 2 = (BitVec.ofNat 16 d.data &&& dmask w).extractLsb' 4 8 ∧
      frameByte (encodeFrame w d) 3 =
        (BitVec.ofNat 16 d.data &&& dmask w).extractLsb' 0 4 ++ BitVec.ofNat 4 d.mode

/-- R75: with the default tag map, tag 0 carries every bit of a 16-bit DATA, where the rule says, and is injective. -/
def Obligations.SixteenBitDataIsLossless : Prop :=
  ∀ (c : Config) (d : RawDesc), c.tags = TagMap.default →
    (∃ F, encodeDesc c 0 d = some F ∧
      (frameByte F 1).extractLsb' 0 4 = (BitVec.ofNat 16 d.data).extractLsb' 12 4 ∧
      frameByte F 2 = (BitVec.ofNat 16 d.data).extractLsb' 4 8 ∧
      frameByte F 3 = (BitVec.ofNat 16 d.data).extractLsb' 0 4 ++ BitVec.ofNat 4 d.mode) ∧
    (∀ data' : Nat, encodeDesc c 0 { d with data := data' } = encodeDesc c 0 d ↔ data' % 2 ^ 16 = d.data % 2 ^ 16) ∧
    encodeDesc c 0 { rw := 0, cmd := 0x2, addr := 0x1, data := 0x1237, mode := 0x5 } = some 0x02112375#32

/-- R76: with the default tag map, tag 1 drops DATA[1:0] (truncation, not rounding), and nothing else of DATA. -/
def Obligations.FourteenBitDataIsTruncated : Prop :=
  ∀ (c : Config) (d : RawDesc), c.tags = TagMap.default →
    (∃ F, encodeDesc c 1 d = some F ∧
      frameByte F 3 = (BitVec.ofNat 16 d.data).extractLsb' 2 2 ++ 0b00#2 ++ BitVec.ofNat 4 d.mode) ∧
    (∀ data' : Nat, encodeDesc c 1 { d with data := data' } = encodeDesc c 1 d ↔
      (data' % 2 ^ 16) / 4 = (d.data % 2 ^ 16) / 4) ∧
    encodeDesc c 1 { rw := 0, cmd := 0x2, addr := 0x1, data := 0x1237, mode := 0x5 } = some 0x02112345#32

/-- R77: with the default tag map, tag 2 drops DATA[3:0], and byte 3 is the mode alone. -/
def Obligations.TwelveBitDataIsTruncated : Prop :=
  ∀ (c : Config) (d : RawDesc), c.tags = TagMap.default →
    (∃ F, encodeDesc c 2 d = some F ∧ frameByte F 3 = 0b0000#4 ++ BitVec.ofNat 4 d.mode) ∧
    (∀ data' : Nat, encodeDesc c 2 { d with data := data' } = encodeDesc c 2 d ↔
      (data' % 2 ^ 16) / 16 = (d.data % 2 ^ 16) / 16) ∧
    encodeDesc c 2 { rw := 0, cmd := 0x2, addr := 0x1, data := 0x1237, mode := 0x5 } = some 0x02112305#32

/-- R78: ENCODE checks no range. Each field keeps its low bits, no value is an error, and at the ports each mask is the
identity. -/
def Obligations.EncoderMasksEveryField : Prop :=
  (∀ (c : Config) (v : Nat) (d : RawDesc),
      encodeDesc c v d =
        encodeDesc c v
          { rw := d.rw &&& 0x1, cmd := d.cmd &&& 0xF, addr := d.addr &&& 0xF, data := d.data &&& 0xFFFF,
            mode := d.mode &&& 0xF } ∧
      (v ≤ 2 → encodeDesc c v d ≠ none)) ∧
    ∀ p : Desc,
      (descOperand p).rw &&& 0x1 = (descOperand p).rw ∧ (descOperand p).cmd &&& 0xF = (descOperand p).cmd ∧
        (descOperand p).addr &&& 0xF = (descOperand p).addr ∧
        (descOperand p).data &&& 0xFFFF = (descOperand p).data ∧
        (descOperand p).mode &&& 0xF = (descOperand p).mode

/-- R81, which the spec derives from R71 to R77: which frame bits depend on which descriptor field, byte by byte and field
by field. -/
def Obligations.EachFieldHasItsOwnFrameBits : Prop :=
  ∀ (w : Width) (d d' : RawDesc),
    (d.rw = d'.rw → d.cmd = d'.cmd → d.addr = d'.addr →
      frameByte (encodeFrame w d) 0 = frameByte (encodeFrame w d') 0 ∧
        (frameByte (encodeFrame w d) 1).extractLsb' 4 4 = (frameByte (encodeFrame w d') 1).extractLsb' 4 4) ∧
    (d.data = d'.data →
      frameByte (encodeFrame w d) 2 = frameByte (encodeFrame w d') 2 ∧
        (frameByte (encodeFrame w d) 1).extractLsb' 0 4 = (frameByte (encodeFrame w d') 1).extractLsb' 0 4 ∧
        (frameByte (encodeFrame w d) 3).extractLsb' 4 4 = (frameByte (encodeFrame w d') 3).extractLsb' 4 4) ∧
    (d.mode = d'.mode →
      (frameByte (encodeFrame w d) 3).extractLsb' 0 4 = (frameByte (encodeFrame w d') 3).extractLsb' 0 4) ∧
    (frameByte (encodeFrame .w12 d) 3).extractLsb' 4 4 = 0#4 ∧
    (d.rw = d'.rw → (encodeFrame w d).extractLsb' 28 1 = (encodeFrame w d').extractLsb' 28 1) ∧
    (d.cmd = d'.cmd → (encodeFrame w d).extractLsb' 24 4 = (encodeFrame w d').extractLsb' 24 4) ∧
    (d.addr = d'.addr → (encodeFrame w d).extractLsb' 20 4 = (encodeFrame w d').extractLsb' 20 4) ∧
    (d.data = d'.data → (encodeFrame w d).extractLsb' 4 16 = (encodeFrame w d').extractLsb' 4 16) ∧
    (encodeFrame w d).extractLsb' 29 3 = 0#3

/-- The FRAME rows by themselves return the bytes of their format's table (R55 to R57) and change nothing else. That a
row runs by itself is the model's choice (log entry 5). -/
def Obligations.FrameRowsReturnTheirBytes : Prop :=
  ∀ (s : State) (rw : BitVec 1) (cmd addr mode : BitVec 4),
    (∀ data : BitVec 16, exec (.frameF16 rw cmd addr data mode) s =
      .next { s with io := { s.io with encoded := s.io.encoded ++
        [[0b000#3 ++ rw ++ cmd, addr ++ data.extractLsb' 12 4, data.extractLsb' 4 8, data.extractLsb' 0 4 ++ mode]] } }) ∧
    (∀ data : BitVec 14, exec (.frameF14 rw cmd addr data mode) s =
      .next { s with io := { s.io with encoded := s.io.encoded ++
        [[0b000#3 ++ rw ++ cmd, addr ++ data.extractLsb' 10 4, data.extractLsb' 2 8,
          data.extractLsb' 0 2 ++ 0b00#2 ++ mode]] } }) ∧
    (∀ data : BitVec 12, exec (.frameF12 rw cmd addr data mode) s =
      .next { s with io := { s.io with encoded := s.io.encoded ++
        [[0b000#3 ++ rw ++ cmd, addr ++ data.extractLsb' 8 4, data.extractLsb' 0 8, 0b0000#4 ++ mode]] } })

/-! ## INIT -/

/-- R85: INIT's checks in their order, and a failed check changes nothing but the response. -/
def Obligations.InitChecksInOrder : Prop :=
  ∀ (s : State) (q : InitArgs), s.ready →
    (q.hv = false → exec (.init q) s = .next (s.reply 0x02)) ∧
      (q.hv = true → q.tp = false → exec (.init q) s = .next (s.reply 0x02)) ∧
      (q.hv = true → q.tp = true → 2 < q.variant → exec (.init q) s = .next (s.reply 0x03))

/-- R86: when every check passes, INIT completes and its commit of all seven fields stands, whatever the transport
answers and whether or not it does. DMEM, the input, the parameters and the earlier traces do not change, and the trace
only grows. -/
def Obligations.InitCommitStandsWhateverTheTransportDoes : Prop :=
  ∀ (s : State) (q : InitArgs), s.ready → q.hv = true → q.tp = true → q.variant ≤ 2 →
    ∃ t, exec (.init q) s = .next t ∧
      t.session =
        { variant := BitVec.ofNat 2 q.variant, tp := true, capShift := q.capShift, capSel := q.capSel,
          capLdac := q.capLdac, capClr := q.capClr, ctx := q.ctx } ∧
      t.dmem = s.dmem ∧ t.io.port = s.io.port ∧ t.io.encoded = s.io.encoded ∧ t.cfg = s.cfg ∧ t.earlier = s.earlier ∧
      s.trace <+: t.trace

/-- R87: a successful INIT whose priming calls return these statuses commits the session, makes the calls in order (each
whose capability bit is 1, even after a failure), and returns the OR of the statuses; R122 says that a claim should rest on
no more of it than whether it is OK. Nothing else changes but the lines the calls may drive. The model's own choices in the
next state are B.acc at 0x00 after the response (log entry 19) and the count of answers taken (log entry 6). -/
def Obligations.InitPrimesInOrderAndReturnsTheOr : Prop :=
  ∀ (s : State) (q : InitArgs) (sts : List Byte), s.ready → q.hv = true → q.tp = true → q.variant ≤ 2 →
    sts.length = (primingCalls q).length → s.returnsNext sts →
    ∃ l, exec (.init q) s =
        .next
          { s with
            session :=
              { variant := BitVec.ofNat 2 q.variant, tp := true, capShift := q.capShift, capSel := q.capSel,
                capLdac := q.capLdac, capClr := q.capClr, ctx := q.ctx }
            block := { phase := .idle, acc := 0x00 }
            trace := s.trace ++ callLog (primingCalls q) sts
            lines := l
            io := { s.io with responses := s.io.responses ++ [sts.foldl (· ||| ·) 0x00] }
            env := { s.env with polls := s.env.polls + sts.length } } ∧
      (q.capClr = false → l.clr = s.lines.clr) ∧ (q.capLdac = false → l.ldac = s.lines.ldac) ∧
      (q.capSel = false → l.sync = s.lines.sync)

/-- R122: what a claim may use of INIT's status is whether it is OK, and it is OK exactly when every priming call
returned OK. -/
def Obligations.InitStatusIsOkExactlyWhenEveryCallIs : Prop :=
  ∀ (s : State) (q : InitArgs) (sts : List Byte), s.ready → q.hv = true → q.tp = true → q.variant ≤ 2 →
    sts.length = (primingCalls q).length → s.returnsNext sts →
    ∃ t st, exec (.init q) s = .next t ∧ t.io.responses = s.io.responses ++ [st] ∧
      (st = 0x00 ↔ ∀ x ∈ sts, x = 0x00#8)

/-- R111 and R87: where every priming call returns OK, CLR is high, LDAC low and SYNC high afterwards, as far as the
transport has the function. It rests on the transport's duties (log entry 8). -/
def Obligations.InitLeavesTheLinesPrimed : Prop :=
  ∀ (s : State) (q : InitArgs) (sts : List Byte), s.ready → q.hv = true → q.tp = true → q.variant ≤ 2 →
    sts.length = (primingCalls q).length → s.returnsNext sts → (∀ x ∈ sts, x = 0x00#8) →
    ∃ t, exec (.init q) s = .next t ∧
      t.lines.clr = (if q.capClr then .high else s.lines.clr) ∧
      t.lines.ldac = (if q.capLdac then .low else s.lines.ldac) ∧
      t.lines.sync = (if q.capSel then .high else s.lines.sync)

/-- R113 for INIT: after some priming calls have returned, the next one does not. INIT stays BUSY with no response; the
calls before it are made and the commit of all seven fields stands. -/
def Obligations.InitStaysBusyWhileACallIsOut : Prop :=
  ∀ (s : State) (q : InitArgs) (sts : List Byte) (c : TCall), s.ready → q.hv = true → q.tp = true → q.variant ≤ 2 →
    (primingCalls q)[sts.length]? = some c → s.returnsNext sts →
    s.env.answer (s.env.polls + sts.length) = .pending →
    ∃ t f, exec (.init q) s = .next t ∧ t.block.phase = .busy f ∧ f.op = .init q ∧ f.pending = some c ∧
      t.block.acc = sts.foldl (· ||| ·) 0x00 ∧
      t.trace = s.trace ++ callLog (primingCalls q) sts ++ [.call c] ∧ t.io = s.io ∧ t.dmem = s.dmem ∧
      t.session =
        { variant := BitVec.ofNat 2 q.variant, tp := true, capShift := q.capShift, capSel := q.capSel,
          capLdac := q.capLdac, capClr := q.capClr, ctx := q.ctx }

/-- R126: an INIT that waits for its k-th priming call goes on when that call returns, whatever the status: it makes the
calls that are left and returns the OR. That B.step is 2 + 2k then is the model's numbering (log entry 3). -/
def Obligations.WaitingInitGoesOnWhenItsCallReturns : Prop :=
  ∀ (s : State) (f : InFlight) (q : InitArgs) (k : Nat) (c : TCall) (st : Byte) (sts : List Byte),
    s.env.events = [] → s.block.phase = .busy f → f.op = .init q → q.hv = true → q.tp = true → q.variant ≤ 2 →
    s.session.ctx = q.ctx → (primingCalls q)[k]? = some c → f.pending = some c → f.step = 2 + 2 * k →
    s.returnsNext (st :: sts) → k + 1 + sts.length = (primingCalls q).length →
    ∃ t, step s = .next t ∧ t.block.phase = .idle ∧
      t.io = { s.io with responses := s.io.responses ++ [(st :: sts).foldl (· ||| ·) s.block.acc] } ∧
      t.trace = s.trace ++ [.ret st] ++ callLog ((primingCalls q).drop (k + 1)) sts ∧ t.session = s.session ∧
      t.dmem = s.dmem

/-! ## WRITE -/

/-- R88, R91: WRITE's checks in their order, and a failed check changes nothing but the response. -/
def Obligations.WriteChecksInOrder : Prop :=
  ∀ (s : State) (q : WriteArgs), s.ready →
    (q.hv = false → exec (.write q) s = .next (s.reply 0x02)) ∧
      (q.hv = true → s.session.tp = false → exec (.write q) s = .next (s.reply 0x02)) ∧
      (q.hv = true → s.session.tp = true → s.session.capShift = false → exec (.write q) s = .next (s.reply 0x02)) ∧
      (q.hv = true → s.session.tp = true → s.session.capShift = true → 2 < s.session.variant.toNat →
        exec (.write q) s = .next (s.reply 0x03))

/-- R89, R90: a WRITE that passes validation makes one shift call with the 4 bytes of its frame, the length 4 and S.ctx,
and returns that call's status bit for bit. Nothing else changes but SYNC, which the transport leaves high (R106; the
model's reading of its duty, log entry 8), and the count of answers taken (the model's, log entry 6). -/
def Obligations.WriteShiftsItsFrameOnce : Prop :=
  ∀ (s : State) (q : WriteArgs) (st : Byte), s.ready → q.hv = true → s.session.tp = true →
    s.session.capShift = true → s.session.variant.toNat ≤ 2 → s.env.answer s.env.polls = .returned st →
    ∃ F, encodeDesc s.cfg s.session.variant.toNat (descOperand q.desc) = some F ∧
      exec (.write q) s =
        .next
          { s with
            trace := s.trace ++
              [.call (.shift [frameByte F 0, frameByte F 1, frameByte F 2, frameByte F 3] 4 s.session.ctx), .ret st]
            lines := { s.lines with sync := .high }
            io := { s.io with responses := s.io.responses ++ [st] }
            env := { s.env with polls := s.env.polls + 1 } }

/-- R113 for WRITE: where the shift call does not return at once, WRITE is BUSY with the call made and no response. -/
def Obligations.WriteStaysBusyWhileItsCallIsOut : Prop :=
  ∀ (s : State) (q : WriteArgs), s.ready → q.hv = true → s.session.tp = true → s.session.capShift = true →
    s.session.variant.toNat ≤ 2 → s.env.answer s.env.polls = .pending →
    ∃ F t f, encodeDesc s.cfg s.session.variant.toNat (descOperand q.desc) = some F ∧ exec (.write q) s = .next t ∧
      t.block.phase = .busy f ∧ f.op = .write q ∧ f.pending = some (.shift (frameBytes F) 4 s.session.ctx) ∧
      t.trace = s.trace ++ [.call (.shift (frameBytes F) 4 s.session.ctx)] ∧ t.io = s.io ∧ t.dmem = s.dmem ∧
      t.session = s.session

/-- R92: a WRITE with RW = 1 differs from one with RW = 0 in frame bit 28 alone. Where a check fails, both do the same.
Where none fails, both complete; the one call has bit 28 at 0 and at 1, and everything else (the response or the waiting,
the session, DMEM, the lines, the ports) is the same. -/
def Obligations.ReadFrameIsShiftedLikeAnyOther : Prop :=
  ∀ (s : State) (d : Desc), s.ready →
    (∀ hv : Bool,
      hv = false ∨ s.session.tp = false ∨ s.session.capShift = false ∨ 2 < s.session.variant.toNat →
      exec (.write { hv := hv, desc := { d with rw := 1 } }) s =
        exec (.write { hv := hv, desc := { d with rw := 0 } }) s) ∧
    (s.session.tp = true → s.session.capShift = true → s.session.variant.toNat ≤ 2 →
      ∃ t0 F0 rest, exec (.write { hv := true, desc := { d with rw := 0 } }) s = .next t0 ∧
        encodeDesc s.cfg s.session.variant.toNat (descOperand { d with rw := 0 }) = some F0 ∧
        F0.extractLsb' 28 1 = 0#1 ∧
        t0.trace = s.trace ++ .call (.shift (frameBytes F0) 4 s.session.ctx) :: rest ∧
        exec (.write { hv := true, desc := { d with rw := 1 } }) s =
          .next
            { t0 with
              trace :=
                s.trace ++ .call (.shift (frameBytes (F0 ||| 0x10000000#32)) 4 s.session.ctx) :: rest
              block :=
                { acc := t0.block.acc
                  phase :=
                    match t0.block.phase with
                    | .idle => .idle
                    | .busy f =>
                      .busy
                        { f with
                          op := .write { hv := true, desc := { d with rw := 1 } }
                          pending := some (.shift (frameBytes (F0 ||| 0x10000000#32)) 4 s.session.ctx) } } })

/-- R120: the WRITE case of UnknownVersion cannot occur: in a state of the invariant a WRITE that passes the checks before
it finds a frame for every descriptor. -/
def Obligations.WriteNeverMeetsAnUnknownVariant : Prop :=
  ∀ (s : State) (q : WriteArgs), s.Inv → s.session.tp = true →
    encodeDesc s.cfg s.session.variant.toNat (descOperand q.desc) ≠ none

/-! ## FORMAT and DMEM -/

/-- A byte of DMEM reads as it was written last, and a write leaves every other byte alone (R39). -/
def Obligations.DmemReadsWhatWasWritten : Prop :=
  ∀ (m : List Host.Cell) (a c : Nat) (b : Byte),
    dmemRead (dmemWrite m a b) c = if c = a then b else dmemRead m c

/-- R93, R97, R41: FORMAT's checks in their order; then a range past the top of DMEM is refused. A failed check changes
nothing but the response. -/
def Obligations.FormatChecksInOrder : Prop :=
  ∀ (s : State) (q : FormatArgs), s.ready →
    (q.hv = false → exec (.format q) s = .next (s.reply 0x02)) ∧
      (q.hv = true → q.dv = false → exec (.format q) s = .next (s.reply 0x02)) ∧
      (q.hv = true → q.dv = true → 2 < s.session.variant.toNat → exec (.format q) s = .next (s.reply 0x03)) ∧
      (q.hv = true → q.dv = true → s.session.variant.toNat ≤ 2 → 2 ^ s.cfg.addrW < q.destBase + q.length →
        exec (.format q) s = .refused .rangePastTop)

/-- R96: a FORMAT that passes validation returns OK, makes no transport call, and fills its range: byte j of the range is
byte j mod 4 of the frame (R94). Every byte outside the range, and everything else, is unchanged. -/
def Obligations.FormatFillsItsRange : Prop :=
  ∀ (s : State) (q : FormatArgs), s.ready → q.hv = true → q.dv = true → s.session.variant.toNat ≤ 2 →
    q.destBase + q.length ≤ 2 ^ s.cfg.addrW →
    ∃ F m, encodeDesc s.cfg s.session.variant.toNat (descOperand q.desc) = some F ∧
      exec (.format q) s =
        .next { s with dmem := m, io := { s.io with responses := s.io.responses ++ [0x00] } } ∧
      (∀ j, j < q.length → dmemRead m (q.destBase + j) = frameByte F (j % 4)) ∧
      (∀ a, a < q.destBase ∨ q.destBase + q.length ≤ a → dmemRead m a = dmemRead s.dmem a)

/-- R95: the range holds length / 4 full repeats of the frame and then the first length mod 4 bytes of it. -/
def Obligations.FormatWritesRepeatsThenALeadingPart : Prop :=
  ∀ (s : State) (q : FormatArgs), s.ready → q.hv = true → q.dv = true → s.session.variant.toNat ≤ 2 →
    q.destBase + q.length ≤ 2 ^ s.cfg.addrW →
    ∃ F t, encodeDesc s.cfg s.session.variant.toNat (descOperand q.desc) = some F ∧ exec (.format q) s = .next t ∧
      (List.range q.length).map (fun j => dmemRead t.dmem (q.destBase + j)) =
        (List.replicate (q.length / 4) (frameBytes F)).flatten ++ (frameBytes F).take (q.length % 4)

/-- R36: a host that reads 4 bytes of a full repeat sees the frame most significant byte first; the other byte order
gives it reversed. -/
def Obligations.FormattedRepeatReadsBigEndian : Prop :=
  ∀ (s : State) (q : FormatArgs) (k : Nat), s.ready → q.hv = true → q.dv = true → s.session.variant.toNat ≤ 2 →
    q.destBase + q.length ≤ 2 ^ s.cfg.addrW → 4 * k + 4 ≤ q.length →
    ∃ F t, encodeDesc s.cfg s.session.variant.toNat (descOperand q.desc) = some F ∧ exec (.format q) s = .next t ∧
      dmemReadBE t.dmem (q.destBase + 4 * k) = F ∧
      dmemReadLE t.dmem (q.destBase + 4 * k) = frameByte F 3 ++ frameByte F 2 ++ frameByte F 1 ++ frameByte F 0

/-- R39: FORMAT is idempotent: a second FORMAT with the same request leaves DMEM as the first did; and the first leaves
every byte outside its range as it was. -/
def Obligations.FormatIsIdempotent : Prop :=
  ∀ (s t : State) (q : FormatArgs), s.ready → dmemWf s.cfg.addrW s.dmem → exec (.format q) s = .next t →
    (∃ u, exec (.format q) t = .next u ∧ u.dmem = t.dmem) ∧
      ∀ a, a < q.destBase ∨ q.destBase + q.length ≤ a → dmemRead t.dmem a = dmemRead s.dmem a

/-- R98: FORMAT reads neither S.tp nor any capability bit, nor S.ctx: with any other transport binding and the same
variant it does the same. -/
def Obligations.FormatIgnoresTheTransportBinding : Prop :=
  ∀ (s : State) (q : FormatArgs) (tp capShift capSel capLdac capClr : Bool) (ctx : Nat), s.ready →
    exec (.format q)
        { s with session := { variant := s.session.variant, tp := tp, capShift := capShift, capSel := capSel,
                              capLdac := capLdac, capClr := capClr, ctx := ctx } } =
      match exec (.format q) s with
      | .next t =>
        .next { t with session := { variant := s.session.variant, tp := tp, capShift := capShift, capSel := capSel,
                                    capLdac := capLdac, capClr := capClr, ctx := ctx } }
      | .fault r => .fault r
      | .refused r => .refused r

/-- R135: a reset that lands after k byte writes of a FORMAT abandons it: the bytes written stay written, no response is
sent, and the block has its reset values. That the k bytes are the first k rests on the ascending order of R44 and R94,
which is the spec's own decision D14, and "Claims must not rely on it"; that acceptance counts as one effect of the delay is
the model's (log entry 10). -/
def Obligations.ResetCutsFormatShort : Prop :=
  ∀ (s : State) (q : FormatArgs) (k : Nat), s.block.phase = .idle →
    s.env.events = [{ delay := k + 1, act := .reset }] →
    k ≤ q.length → q.hv = true → q.dv = true → s.session.variant.toNat ≤ 2 →
    q.destBase + q.length ≤ 2 ^ s.cfg.addrW →
    ∃ F t, encodeDesc s.cfg s.session.variant.toNat (descOperand q.desc) = some F ∧ exec (.format q) s = .next t ∧
      t.session = Session.reset ∧ t.block = Block.reset ∧ t.io = s.io ∧ t.lines = s.lines ∧
      (∀ j, j < k → dmemRead t.dmem (q.destBase + j) = frameByte F (j % 4)) ∧
      (∀ a, a < q.destBase ∨ q.destBase + k ≤ a → dmemRead t.dmem a = dmemRead s.dmem a)

/-- R135: a reset that lands between the acceptance of a request and the first effect of its rule abandons it, whatever the
request is and whether or not its checks would pass: no response, no call, no byte, no commit. That the trace moves to the
earlier calls is the model's reading (log entry 9), and the place of the reset its counting (log entry 10). -/
def Obligations.ResetAfterAcceptanceAbandonsTheRequest : Prop :=
  ∀ s : State, s.block.phase = .idle → s.env.events = [{ delay := 1, act := .reset }] →
    let t : State :=
      { s with
        session := Session.reset
        block := Block.reset
        trace := []
        earlier := s.earlier ++ s.trace
        env := { s.env with events := [] } }
    (∀ q, exec (.init q) s = .next t) ∧ (∀ q, exec (.write q) s = .next t) ∧
      (∀ q : FormatArgs,
        q.hv = false ∨ q.dv = false ∨ 2 < s.session.variant.toNat ∨ q.destBase + q.length ≤ 2 ^ s.cfg.addrW →
        exec (.format q) s = .next t) ∧
      exec .rsvd s = .next t

/-- R45: another agent's write into the range of a BUSY FORMAT, whenever it lands, is overwritten or kept. The FORMAT
completes with OK all the same; every other byte of the range holds its frame byte, and every byte outside the range is
unchanged. The moment of the write is an input of the model's (log entry 10). -/
def Obligations.RacingWriteIsKeptOrOverwritten : Prop :=
  ∀ (s : State) (q : FormatArgs) (k j : Nat) (b : Byte), s.block.phase = .idle →
    s.env.events = [{ delay := k, act := .write (q.destBase + j) b }] → j < q.length →
    q.hv = true → q.dv = true → s.session.variant.toNat ≤ 2 → q.destBase + q.length ≤ 2 ^ s.cfg.addrW →
    ∃ F t, encodeDesc s.cfg s.session.variant.toNat (descOperand q.desc) = some F ∧ exec (.format q) s = .next t ∧
      t.block.phase = .idle ∧ t.io = { s.io with responses := s.io.responses ++ [0x00] } ∧
      (dmemRead t.dmem (q.destBase + j) = frameByte F (j % 4) ∨ dmemRead t.dmem (q.destBase + j) = b) ∧
      (∀ i, i < q.length → i ≠ j → dmemRead t.dmem (q.destBase + i) = frameByte F (i % 4)) ∧
      (∀ a, a < q.destBase ∨ q.destBase + q.length ≤ a → dmemRead t.dmem a = dmemRead s.dmem a)

/-- R45: another agent's read in the range of a BUSY FORMAT gives a free value. The FORMAT completes with OK and DMEM is as
it is without the read: the range holds its frame bytes, and every byte outside it is unchanged. The moment of the read is an
input of the model's, counted from the acceptance on (log entry 10). -/
def Obligations.RacingReadIsFree : Prop :=
  ∀ (s : State) (q : FormatArgs) (k j : Nat), s.block.phase = .idle →
    s.env.events = [{ delay := k, act := .read (q.destBase + j) }] → j < q.length → k ≤ q.length + 1 →
    q.hv = true → q.dv = true → s.session.variant.toNat ≤ 2 → q.destBase + q.length ≤ 2 ^ s.cfg.addrW →
    ∃ F t, encodeDesc s.cfg s.session.variant.toNat (descOperand q.desc) = some F ∧ exec (.format q) s = .next t ∧
      t.block.phase = .idle ∧ t.io = { s.io with responses := s.io.responses ++ [0x00] } ∧
      t.env.seen = s.env.seen ++ [(q.destBase + j, Config.racingByte s.env.seen.length)] ∧
      (∀ i, i < q.length → dmemRead t.dmem (q.destBase + i) = frameByte F (i % 4)) ∧
      (∀ a, a < q.destBase ∨ q.destBase + q.length ≤ a → dmemRead t.dmem a = dmemRead s.dmem a)

/-! ## RSVD -/

/-- R99, R64: RSVD returns Error in any session state and changes nothing else; and a request with the op code 11 does
that, whatever its other fields hold. -/
def Obligations.RsvdRaisesError : Prop :=
  ∀ s : State, s.ready →
    exec .rsvd s = .next (s.reply 0x01) ∧
      ∀ (q : Request) (rest : List PortItem), q.wf s.cfg → q.op = 0b11#2 →
        step { s with io := { s.io with port := .request (q.toBytes s.cfg) :: rest } } =
          .next ({ s with io := { s.io with port := rest } }.reply 0x01)

/-! ## Requests, responses and the step -/

/-- R140: a request made while the block is BUSY has no step. -/
def Obligations.BusyBlockHasNoStepForARequest : Prop :=
  ∀ (s : State) (f : InFlight), s.block.phase = .busy f →
    (∀ q, exec (.init q) s = .refused .requestWhileBusy) ∧ (∀ q, exec (.write q) s = .refused .requestWhileBusy) ∧
      (∀ q, exec (.format q) s = .refused .requestWhileBusy) ∧ exec .rsvd s = .refused .requestWhileBusy

/-- A step of an IDLE block takes the first item from the input and runs the instruction it decodes to. -/
def Obligations.StepRunsTheDecodedInstruction : Prop :=
  ∀ (s : State) (item : PortItem) (rest : List PortItem) (i : Instr), s.ready → s.io.port = item :: rest →
    decode s.cfg item = .ok i → step s = exec i { s with io := { s.io with port := rest } }

/-- An IDLE block with nothing at its input waits. R82 does not say so: that such a step is taken and changes nothing is the
model's (log entry 17). -/
def Obligations.IdleBlockWaits : Prop :=
  ∀ s : State, s.ready → s.io.port = [] → step s = .next s

/-- R113: as long as a call does not return, its operation stays BUSY, however many steps that are: the block is in the
same phase, has sent no response, has taken nothing from its input, and has changed no session field, no DMEM byte and nothing in the
trace. The call's line may move (log entry 8), and the answers taken are counted (log entry 6). -/
def Obligations.CallThatDoesNotReturnKeepsTheBlockBusy : Prop :=
  ∀ (s : State) (f : InFlight) (c : TCall) (n : Nat), s.env.events = [] → s.block.phase = .busy f →
    f.pending = some c → (∀ k, k < n → s.env.answer (s.env.polls + k) = .pending) →
    ∃ t, Sys2Proof.core.run n s = .next t ∧ t.block = s.block ∧ t.io = s.io ∧ t.session = s.session ∧
      t.dmem = s.dmem ∧ t.trace = s.trace

/-- R90 after any delay: a WRITE that waits for its shift call answers, when the call returns after n more looks, with
that call's status; nothing else of the block has changed in between. SYNC rests on the transport's duty (log entry 8). -/
def Obligations.WaitingWritePassesTheStatusOn : Prop :=
  ∀ (s : State) (f : InFlight) (q : WriteArgs) (F : Frame) (st : Byte) (n : Nat), s.env.events = [] →
    s.block.phase = .busy f → f.op = .write q → f.step = 0 → q.hv = true → s.session.tp = true →
    s.session.capShift = true → encodeDesc s.cfg s.session.variant.toNat (descOperand q.desc) = some F →
    f.pending = some (.shift (frameBytes F) 4 s.session.ctx) →
    (∀ k, k < n → s.env.answer (s.env.polls + k) = .pending) → s.env.answer (s.env.polls + n) = .returned st →
    ∃ t, Sys2Proof.core.run (n + 1) s = .next t ∧ t.block.phase = .idle ∧
      t.io = { s.io with responses := s.io.responses ++ [st] } ∧ t.trace = s.trace ++ [.ret st] ∧
      t.session = s.session ∧ t.dmem = s.dmem ∧ t.lines.sync = .high

/-- R82: a step sends at most one response, and after it the block is IDLE. -/
def Obligations.StepSendsAtMostOneResponse : Prop :=
  ∀ s t : State, step s = .next t →
    t.io.responses = s.io.responses ∨
      (∃ st, t.io.responses = s.io.responses ++ [st]) ∧ t.block.phase = .idle

/-- R26: the statuses already sent have no effect on any later step: with others in their place, the step is the same. -/
def Obligations.SentStatusesHaveNoEffect : Prop :=
  ∀ (s : State) (before after : List Byte),
    (match step { s with io := { s.io with responses := before } },
        step { s with io := { s.io with responses := after } } with
      | .next t, .next u =>
        ∃ new, t.io.responses = before ++ new ∧ u.io.responses = after ++ new ∧
          u = { t with io := { t.io with responses := u.io.responses } }
      | .fault r, .fault r' => r = r'
      | .refused r, .refused r' => r = r'
      | _, _ => False)

/-- R26, R84: what an earlier INIT has left in B.acc has no effect on a later operation. The model
leaves nothing there after a response (log entry 19), and this holds of any byte. -/
def Obligations.LeftoverAccumulatorHasNoEffect : Prop :=
  ∀ (s t : State) (i : Instr) (x : Byte), s.ready → exec i s = .next t →
    ∃ u, exec i { s with block := { s.block with acc := x } } = .next u ∧
      u = { t with block := { t.block with acc := u.block.acc } }

/-! ## Rules of the whole machine -/

/-- Every step keeps the invariant: the parameters legal, the session at its reset values or configured (R32), DMEM in its
canonical form and inside its address space (R33), a BUSY block waiting for the call at its position (R27), and B.acc at
0x00 unless an INIT is BUSY (no copy of a status outlives its response, R26; that the value is 0x00 is log entry 19). -/
def Obligations.StepKeepsTheInvariant : Prop :=
  ∀ s t : State, s.Inv → step s = .next t → t.Inv

/-- The reset state meets the invariant. -/
def Obligations.ResetStateMeetsTheInvariant : Prop := State.reset.Inv

/-- R24: only a successful INIT writes the session registers. If a step changes one, no reset being to come (other agents'
accesses and late returns may be), the block was IDLE and took an INIT that passes its checks, and the registers hold what that INIT gives. -/
def Obligations.OnlyASuccessfulInitWritesTheSession : Prop :=
  ∀ s t : State, s.Inv → s.noReset → step s = .next t → t.session ≠ s.session →
    s.block.phase = .idle ∧
      ∃ item q, s.io.port.head? = some item ∧ decode s.cfg item = .ok (.init q) ∧ q.hv = true ∧ q.tp = true ∧
        q.variant ≤ 2 ∧
        t.session =
          { variant := BitVec.ofNat 2 q.variant, tp := true, capShift := q.capShift, capSel := q.capSel,
            capLdac := q.capLdac, capClr := q.capClr, ctx := q.ctx }

/-- R34: the block only writes DMEM, and only FORMAT writes it. If a step changes DMEM, no other agent's write and no
reset being to come, the block was IDLE and took a FORMAT that passes its checks. -/
def Obligations.OnlyFormatWritesDmem : Prop :=
  ∀ s t : State, s.Inv → s.noReset → s.noOtherWrite → step s = .next t → t.dmem ≠ s.dmem →
    s.block.phase = .idle ∧
      ∃ item q, s.io.port.head? = some item ∧ decode s.cfg item = .ok (.format q) ∧ q.hv = true ∧ q.dv = true ∧
        s.session.variant.toNat ≤ 2

/-- R101: only INIT and WRITE make calls. If a step changes the trace, no reset being to come, the block was BUSY with one
of them or took one. -/
def Obligations.OnlyInitAndWriteMakeCalls : Prop :=
  ∀ s t : State, s.Inv → s.noReset → step s = .next t → t.trace ≠ s.trace →
    (∃ f, s.block.phase = .busy f ∧ ((∃ q, f.op = .init q) ∨ ∃ q, f.op = .write q)) ∨
      (s.block.phase = .idle ∧
        ∃ item, s.io.port.head? = some item ∧
          ((∃ q, decode s.cfg item = .ok (.init q)) ∨ ∃ q, decode s.cfg item = .ok (.write q)))

/-- R102, R103: every call in the trace is a shift of 4 bytes with the length 4, or a set call with the level that R103
gives it. Every step keeps it. -/
def Obligations.EveryCallIsOneTheBlockMayMake : Prop :=
  ∀ s t : State, callsAllowed s.trace → callsAllowed s.earlier → step s = .next t →
    callsAllowed t.trace ∧ callsAllowed t.earlier

/-- R32: once configured, the session stays configured until the next reset. -/
def Obligations.ConfiguredSessionStaysConfigured : Prop :=
  ∀ s t : State, s.noReset → s.session.configured → step s = .next t → t.session.configured

/-- No step changes the parameters of the machine. -/
def Obligations.StepKeepsTheParameters : Prop :=
  ∀ s t : State, step s = .next t → t.cfg = s.cfg

/-! ## Reset -/

/-- R29, R30: the values reset leaves in S and B. -/
def Obligations.ResetLeavesTheStatedValues : Prop :=
  State.reset.session =
      { variant := 3, tp := false, capShift := false, capSel := false, capLdac := false, capClr := false, ctx := 0 } ∧
    State.reset.block = { phase := .idle, acc := 0x00 } ∧ State.reset.trace = []

/-- R134: a reset gives S and B their reset values, makes no transport call, writes no DMEM byte and drives no line; it
sends no response (R135). That the trace starts empty (R31) and its calls are kept among the earlier ones (R135) is the
model's reading (log entry 9). -/
def Obligations.ResetEventResetsTheBlockAlone : Prop :=
  ∀ s : State, s.env.events = [{ delay := 0, act := .reset }] → s.io.port = [] →
    ∃ orphans, step s =
      .next
        { s with
          session := Session.reset
          block := Block.reset
          trace := []
          earlier := s.earlier ++ s.trace
          env := { s.env with events := [], orphans := orphans } }

/-- R135: a transport call that returns after the reset has no effect on the block. That its Return goes to the record of
the earlier calls and not to the trace is the model's choice (log entries 9 and 12). -/
def Obligations.LateReturnHasNoEffectOnTheBlock : Prop :=
  ∀ (s : State) (st : Byte),
    (s.lateReturn st).session = s.session ∧ (s.lateReturn st).block = s.block ∧ (s.lateReturn st).dmem = s.dmem ∧
      (s.lateReturn st).trace = s.trace ∧ (s.lateReturn st).io = s.io

/-! ## The wire -/

/-- R105: the bytes of a shift call go out most significant bit first, byte order as given: for a frame that is
F[31], …, F[0], 32 bits and nothing else (R107). -/
def Obligations.FrameGoesOutMostSignificantBitFirst : Prop :=
  ∀ F : Frame, serial (frameBytes F) = serialFrame F ∧ (serial (frameBytes F)).length = 32

/-- R106: one WRITE asks for one transfer of exactly the 32 bits of its frame, with SYNC low while they go out and high
before and after. Afterwards SYNC is high unless a shift call is still out, and a link that was ready is ready. The lines
rest on the transport's duties (log entry 8). -/
def Obligations.WriteAsksForOneTransfer : Prop :=
  ∀ (s : State) (q : WriteArgs), s.ready → q.hv = true → s.session.tp = true → s.session.capShift = true →
    s.session.variant.toNat ≤ 2 →
    ∃ F t, encodeDesc s.cfg s.session.variant.toNat (descOperand q.desc) = some F ∧ exec (.write q) s = .next t ∧
      wire t.trace =
        wire s.trace ++ [{ before := .high, during := .low, after := .high, bits := serialFrame F }] ∧
      t.syncRests ∧ (s.linkReady → t.linkReady)
end

