-- ==== Sys2Proof/Laws/Decode.lean ====
section
/-! SUPPORT. The parts of the request layout and of the frame formats: bytes, packed fields, and bit fields of a frame.
The statements about whole instructions are obligations. -/

namespace Sys2Proof

/-! ## Bytes -/

@[simp] theorem toBytesLE_length (k n : Nat) : (toBytesLE k n).length = k := by
  induction k generalizing n with
  | zero => rfl
  | succ k ih => simp [toBytesLE, ih]

/-- The bytes of a number that fits them hold that number. -/
theorem ofBytesLE_toBytesLE (k n : Nat) (h : n < 256 ^ k) : ofBytesLE (toBytesLE k n) = n := by
  induction k generalizing n with
  | zero => simp at h; subst h; rfl
  | succ k ih =>
    have hq : n / 256 < 256 ^ k := by
      rw [Nat.div_lt_iff_lt_mul (by omega)]; rw [Nat.pow_succ] at h; exact h
    simp only [toBytesLE, ofBytesLE, ih _ hq, BitVec.toNat_ofNat]
    omega

/-! ## Packed fields -/

/-- Packed fields fit the sum of their widths. -/
theorem packFields_lt (ws vs : List Nat) : packFields ws vs < 2 ^ ws.sum := by
  induction ws generalizing vs with
  | nil => cases vs <;> simp [packFields]
  | cons w ws ih =>
    cases vs with
    | nil => simp [packFields]
    | cons v vs =>
      simp only [packFields, List.sum_cons, Nat.pow_add]
      have h1 : v % 2 ^ w < 2 ^ w := Nat.mod_lt _ (Nat.two_pow_pos w)
      have h2 := ih vs
      calc v % 2 ^ w + 2 ^ w * packFields ws vs < 2 ^ w + 2 ^ w * packFields ws vs := by omega
        _ = 2 ^ w * (packFields ws vs + 1) := by ring
        _ ≤ 2 ^ w * 2 ^ ws.sum := Nat.mul_le_mul_left _ h2

/-- Packed fields read back, where each value fits its field. -/
theorem unpackFields_packFields (ws vs : List Nat) (h : List.Forall₂ (fun w v => v < 2 ^ w) ws vs) :
    unpackFields ws (packFields ws vs) = vs := by
  induction h with
  | nil => rfl
  | @cons w v ws vs hv _ ih =>
    have hp := Nat.two_pow_pos w
    have h1 : (v % 2 ^ w + 2 ^ w * packFields ws vs) % 2 ^ w = v := by
      rw [Nat.add_mul_mod_self_left, Nat.mod_mod, Nat.mod_eq_of_lt hv]
    have h2 : (v % 2 ^ w + 2 ^ w * packFields ws vs) / 2 ^ w = packFields ws vs := by
      rw [Nat.add_mul_div_left _ _ hp, Nat.div_eq_of_lt (Nat.mod_lt _ hp), Nat.zero_add]
    simp only [packFields, unpackFields, h1, h2, ih]

/-- Unpacked fields fit their widths. -/
theorem unpackFields_fit (ws : List Nat) (n : Nat) :
    List.Forall₂ (fun w v => v < 2 ^ w) ws (unpackFields ws n) := by
  induction ws generalizing n with
  | nil => exact .nil
  | cons w ws ih => exact .cons (Nat.mod_lt _ (Nat.two_pow_pos w)) (ih _)

/-- The bytes that hold a request record are enough for its bits. -/
theorem requestBits_le (c : Config) : requestBits c ≤ 8 * requestBytes c := by
  unfold requestBytes; omega

/-! ## Request records -/

/-- The record of a record's field values is that record. -/
theorem ofFields_fields (q : Request) : Request.ofFields q.fields = some q := by
  obtain ⟨op, hv, variant, tp, cs, cl, cd, cc, ctx, ⟨rw, cmd, addr, data, mode⟩, dv, db, len⟩ := q
  cases hv <;> cases tp <;> cases cs <;> cases cl <;> cases cd <;> cases cc <;> cases dv <;>
    simp [Request.ofFields, Request.fields]

/-- The field values of a record within the port widths fit their fields. -/
theorem fields_fit (c : Config) (q : Request) (h : q.wf c) :
    List.Forall₂ (fun w v => v < 2 ^ w) (requestWidths c) q.fields := by
  have hb : ∀ b : Bool, b.toNat < 2 ^ 1 := by decide
  obtain ⟨h1, h2, h3, h4⟩ := h
  unfold requestWidths Request.fields
  exact .cons q.op.isLt <| .cons (hb _) <| .cons h1 <| .cons (hb _) <| .cons (hb _) <| .cons (hb _) <|
    .cons (hb _) <| .cons (hb _) <| .cons h2 <| .cons q.desc.rw.isLt <| .cons q.desc.cmd.isLt <|
    .cons q.desc.addr.isLt <| .cons q.desc.data.isLt <| .cons q.desc.mode.isLt <| .cons (hb _) <|
    .cons h3 <| .cons h4 .nil

/-- The bytes of a request record within the port widths read back as that record. -/
theorem ofBytes_toBytes (c : Config) (q : Request) (h : q.wf c) : Request.ofBytes c (q.toBytes c) = .ok q := by
  have hlt : packFields (requestWidths c) q.fields < 2 ^ requestBits c := packFields_lt _ _
  have hle : 2 ^ requestBits c ≤ 256 ^ requestBytes c := by
    rw [show (256 : Nat) = 2 ^ 8 from rfl, ← Nat.pow_mul]
    exact Nat.pow_le_pow_right (by omega) (requestBits_le c)
  have hn := ofBytesLE_toBytesLE (requestBytes c) _ (Nat.lt_of_lt_of_le hlt hle)
  simp only [Request.ofBytes, Request.toBytes, toBytesLE_length, ne_eq, not_true_eq_false, if_false, hn,
    Nat.not_le.2 hlt, unpackFields_packFields _ _ (fields_fit c q h), ofFields_fields]

/-- What a request record that decodes has: its fields of open width within the port widths. -/
theorem ofBytes_wf (c : Config) (bs : List Byte) (q : Request) (h : Request.ofBytes c bs = .ok q) : q.wf c := by
  simp only [Request.ofBytes] at h
  split at h
  · cases h
  · split at h
    · cases h
    · split at h
      · next q' hq =>
        cases h
        have hf := unpackFields_fit (requestWidths c) (ofBytesLE bs)
        revert hq hf
        generalize unpackFields (requestWidths c) (ofBytesLE bs) = vs
        unfold requestWidths
        intro hq hf
        obtain _ | ⟨-, hf⟩ := hf
        obtain _ | ⟨-, hf⟩ := hf
        obtain _ | ⟨h1, hf⟩ := hf
        obtain _ | ⟨-, hf⟩ := hf
        obtain _ | ⟨-, hf⟩ := hf
        obtain _ | ⟨-, hf⟩ := hf
        obtain _ | ⟨-, hf⟩ := hf
        obtain _ | ⟨-, hf⟩ := hf
        obtain _ | ⟨h2, hf⟩ := hf
        obtain _ | ⟨-, hf⟩ := hf
        obtain _ | ⟨-, hf⟩ := hf
        obtain _ | ⟨-, hf⟩ := hf
        obtain _ | ⟨-, hf⟩ := hf
        obtain _ | ⟨-, hf⟩ := hf
        obtain _ | ⟨-, hf⟩ := hf
        obtain _ | ⟨h3, hf⟩ := hf
        obtain _ | ⟨h4, hf⟩ := hf
        cases hf
        simp only [Request.ofFields, Option.some.injEq] at hq
        subst hq
        exact ⟨h1, h2, h3, h4⟩
      · cases h

/-- Selecting an operation keeps the fields within the port widths. -/
theorem select_wf (c : Config) (q : Request) (h : q.wf c) : q.select.wf c = true := by
  obtain ⟨h1, h2, h3, h4⟩ := h
  unfold Request.select
  split <;> simp [Instr.wf, InitArgs.wf, FormatArgs.wf, h1, h2, h3, h4]

/-! ## Frames -/

/-- The four bytes of a frame make that frame. -/
@[simp] theorem frameOfBytes_frameByte (F : Frame) :
    frameOfBytes (frameByte F 0) (frameByte F 1) (frameByte F 2) (frameByte F 3) = F := by
  apply BitVec.eq_of_getLsbD_eq
  intro i hi
  simp only [frameOfBytes, frameByte, BitVec.getLsbD_append, BitVec.getLsbD_extractLsb']
  by_cases h0 : i < 8
  · simp [h0]
  · by_cases h1 : i < 16
    · have e1 : i - 8 < 8 := by omega
      have e2 : 8 + (i - 8) = i := by omega
      simp [h0, e1, e2]
    · by_cases h2 : i < 24
      · have e0 : ¬ i - 8 < 8 := by omega
        have e1 : i - 8 - 8 < 8 := by omega
        have e2 : 16 + (i - 8 - 8) = i := by omega
        simp [h0, e0, e1, e2]
      · have e0 : ¬ i - 8 < 8 := by omega
        have e1 : ¬ i - 8 - 8 < 8 := by omega
        have e2 : 24 + (i - 8 - 8 - 8) = i := by omega
        simp [h0, e0, e1, e2]
        omega

/-- What a frame that decodes is: its don't-care bits and pad bits are 0, and the instruction holds its fields. -/
theorem decodeFrame_eq_ok (w : Width) (F : Frame) (i : Instr) :
    decodeFrame w F = .ok i ↔ F.extractLsb' 29 3 = 0#3 ∧ padIsZero w F = true ∧ frameFields w F = i := by
  unfold decodeFrame
  split
  · next h => simp [h]
  · next h =>
    rw [ne_eq, not_not] at h
    split
    · next h' => simp [h']
    · next h' => rw [Bool.not_eq_false] at h'; simp [h, h']

/-- Every instruction that decodes is well formed. -/
theorem decode_wf (c : Config) (item : PortItem) (i : Instr) (h : decode c item = .ok i) : i.wf c = true := by
  unfold decode at h
  split at h
  · split at h
    · next q hq => cases h; exact select_wf c q (ofBytes_wf c _ q hq)
    · cases h
  · obtain ⟨-, -, rfl⟩ := (decodeFrame_eq_ok _ _ _).1 h
    rename_i w _ _ _ _
    cases w <;> rfl
  · cases h

end Sys2Proof
end

