-- ==== Sys2Proof/Laws/Dmem.lean ====
section
/-! SUPPORT. DMEM: a read after a write, and the canonical form. -/

namespace Sys2Proof.Machine

@[simp] theorem dmemFind_nil (a : Nat) : dmemFind [] a = none := rfl

/-- A byte reads as it was written last. -/
@[simp] theorem dmemFind_write_same (m : List Host.Cell) (a : Nat) (b : Byte) :
    dmemFind (dmemWrite m a b) a = some b := by
  induction m with
  | nil => simp [dmemWrite, dmemFind]
  | cons cell m ih =>
    obtain ⟨k, v⟩ := cell
    simp only [dmemWrite]
    split
    · simp [dmemFind]
    · split
      · simp [dmemFind]
      · have hk : k ≠ a := fun h => by omega
        simp [dmemFind, hk, ih]

/-- A write leaves every other byte alone (R39). -/
theorem dmemFind_write_other (m : List Host.Cell) (a c : Nat) (b : Byte) (h : c ≠ a) :
    dmemFind (dmemWrite m a b) c = dmemFind m c := by
  induction m with
  | nil => simp [dmemWrite, dmemFind, Ne.symm h]
  | cons cell m ih =>
    obtain ⟨k, v⟩ := cell
    simp only [dmemWrite]
    split
    · simp [dmemFind, Ne.symm h]
    · split
      · next hk => subst hk; simp [dmemFind, Ne.symm h]
      · simp [dmemFind, ih]

/-- What a write can do to a byte. -/
theorem dmemFind_write (m : List Host.Cell) (a c : Nat) (b : Byte) :
    dmemFind (dmemWrite m a b) c = if c = a then some b else dmemFind m c := by
  split
  · next h => subst h; exact dmemFind_write_same m c b
  · next h => exact dmemFind_write_other m a c b h

/-- The entries after a write are the new one and old ones. -/
theorem mem_dmemWrite (m : List Host.Cell) (a : Nat) (b : Byte) (cell : Host.Cell) (h : cell ∈ dmemWrite m a b) :
    cell = (a, b) ∨ cell ∈ m := by
  induction m with
  | nil => exact .inl (by simpa [dmemWrite] using h)
  | cons head m ih =>
    obtain ⟨k, v⟩ := head
    simp only [dmemWrite] at h
    split at h
    · simpa using h
    · split at h
      · rcases List.mem_cons.1 h with h | h
        · exact .inl h
        · exact .inr (List.mem_cons_of_mem _ h)
      · rcases List.mem_cons.1 h with h | h
        · exact .inr (h ▸ List.mem_cons_self)
        · exact (ih h).imp id (List.mem_cons_of_mem _)

/-- The addresses after a write stay strictly rising. -/
theorem dmemWrite_rising (m : List Host.Cell) (a : Nat) (b : Byte) (h : (m.map Prod.fst).Pairwise (· < ·)) :
    ((dmemWrite m a b).map Prod.fst).Pairwise (· < ·) := by
  induction m with
  | nil => simp [dmemWrite]
  | cons head m ih =>
    obtain ⟨k, v⟩ := head
    simp only [List.map_cons, List.pairwise_cons, List.mem_map] at h
    simp only [dmemWrite]
    split
    · next hlt =>
      simp only [List.map_cons, List.pairwise_cons, List.mem_cons, List.mem_map]
      refine ⟨?_, fun x hx => h.1 x hx, h.2⟩
      rintro x (rfl | hx)
      · exact hlt
      · exact Nat.lt_trans hlt (h.1 x hx)
    · split
      · next heq => subst heq; simpa only [List.map_cons, List.pairwise_cons, List.mem_map] using h
      · next hlt hne =>
        simp only [List.map_cons, List.pairwise_cons, List.mem_map]
        refine ⟨?_, ih h.2⟩
        rintro x ⟨cell, hc, rfl⟩
        rcases mem_dmemWrite m a b cell hc with rfl | hc
        · simp only; omega
        · exact h.1 _ ⟨cell, hc, rfl⟩

/-- Every memory operation keeps the canonical form: writing is the only one. -/
theorem dmemWrite_wf (addrW : Nat) (m : List Host.Cell) (a : Nat) (b : Byte) (ha : a < 2 ^ addrW)
    (h : dmemWf addrW m) : dmemWf addrW (dmemWrite m a b) := by
  refine ⟨dmemWrite_rising m a b h.1, fun cell hc => ?_⟩
  rcases mem_dmemWrite m a b cell hc with rfl | hc
  · exact ha
  · exact h.2 cell hc

/-- The empty memory has the canonical form. -/
theorem dmemWf_nil (addrW : Nat) : dmemWf addrW [] := by simp [dmemWf]

/-- Memories in canonical form that read the same are the same list. -/
theorem dmem_ext (m m' : List Host.Cell) (h : (m.map Prod.fst).Pairwise (· < ·))
    (h' : (m'.map Prod.fst).Pairwise (· < ·)) (hf : ∀ a, dmemFind m a = dmemFind m' a) : m = m' := by
  have below : ∀ (n : List Host.Cell) (k a : Nat) (v : Byte), (((k, v) :: n).map Prod.fst).Pairwise (· < ·) → a ≤ k →
      dmemFind n a = none := by
    intro n
    induction n with
    | nil => intros; rfl
    | cons c n ih =>
      intro k a v hp ha
      obtain ⟨kc, vc⟩ := c
      have hlt : k < kc := by
        simp only [List.map_cons, List.pairwise_cons] at hp
        exact hp.1 kc (by simp)
      have hp' : (((kc, vc) :: n).map Prod.fst).Pairwise (· < ·) := by
        simp only [List.map_cons, List.pairwise_cons] at hp ⊢
        exact hp.2
      have hne : kc ≠ a := by omega
      simp only [dmemFind, if_neg hne]
      exact ih kc a vc hp' (by omega)
  induction m generalizing m' with
  | nil =>
    cases m' with
    | nil => rfl
    | cons c m' => have := hf c.1; simp [dmemFind] at this
  | cons c m ih =>
    obtain ⟨k, v⟩ := c
    cases m' with
    | nil => have := hf k; simp [dmemFind] at this
    | cons c' m' =>
      obtain ⟨k', v'⟩ := c'
      have hk : k = k' := by
        rcases Nat.lt_trichotomy k k' with hlt | heq | hgt
        · have h1 := hf k
          have hne : k' ≠ k := by omega
          simp only [dmemFind, if_true, if_neg hne] at h1
          rw [below m' k' k v' h' (by omega)] at h1
          cases h1
        · exact heq
        · have h1 := hf k'
          have hne : k ≠ k' := by omega
          simp only [dmemFind, if_true, if_neg hne] at h1
          rw [below m k k' v h (by omega)] at h1
          cases h1
      subst hk
      have hv : v = v' := by have h1 := hf k; simpa [dmemFind] using h1
      subst hv
      have htail : m = m' := by
        refine ih m' ?_ ?_ ?_
        · simp only [List.map_cons, List.pairwise_cons] at h; exact h.2
        · simp only [List.map_cons, List.pairwise_cons] at h'; exact h'.2
        · intro a
          by_cases ha : a = k
          · subst ha; rw [below m a a v h (le_refl _), below m' a a v h' (le_refl _)]
          · have h1 := hf a
            have hne : k ≠ a := fun e => ha e.symm
            simpa only [dmemFind, if_neg hne] using h1
      rw [htail]

end Sys2Proof.Machine
end

