-- ==== Sys2Proof/Laws/Frames.lean ====
section
/-! SUPPORT. Which bit of a frame is which bit of a field, for the three formats, the frame's bytes and the encoder. A
later proof about a frame goes bit by bit with these. -/

namespace Sys2Proof

/-- A bit of two joined fields, under any name of the sum of their widths. -/
theorem getLsbD_joined {n m k : Nat} (x : BitVec n) (y : BitVec m) (h : n + m = k) (i : Nat) :
    (BitVec.cast h (x ++ y)).getLsbD i = if i < m then y.getLsbD i else x.getLsbD (i - m) := by
  simp [BitVec.getLsbD_append]

section
variable (rw : BitVec 1) (cmd addr mode : BitVec 4)

/-- R55: the bits of an F16 frame. -/
theorem getLsbD_packF16 (data : BitVec 16) (i : Nat) :
    (packF16 rw cmd addr data mode).getLsbD i =
      if i < 4 then mode.getLsbD i else if i < 20 then data.getLsbD (i - 4)
      else if i < 24 then addr.getLsbD (i - 20) else if i < 28 then cmd.getLsbD (i - 24)
      else if i < 29 then rw.getLsbD (i - 28) else false := by
  have h1 := getLsbD_joined 0b000#3 rw rfl (i - 28)
  have h2 := getLsbD_joined (0b000#3 ++ rw) cmd rfl (i - 24)
  have h3 := getLsbD_joined (0b000#3 ++ rw ++ cmd) addr rfl (i - 20)
  have h4 := getLsbD_joined (0b000#3 ++ rw ++ cmd ++ addr) data rfl (i - 4)
  refine Eq.trans (getLsbD_joined (0b000#3 ++ rw ++ cmd ++ addr ++ data) mode rfl i) ?_
  simp only [BitVec.cast_eq, Nat.sub_sub, Nat.reduceAdd] at h1 h2 h3 h4 ⊢
  rw [h4, h3, h2, h1]
  split_ifs <;> first | rfl | (exfalso; omega) | simp

/-- R56: the bits of an F14 frame. -/
theorem getLsbD_packF14 (data : BitVec 14) (i : Nat) :
    (packF14 rw cmd addr data mode).getLsbD i =
      if i < 4 then mode.getLsbD i else if i < 6 then false else if i < 20 then data.getLsbD (i - 6)
      else if i < 24 then addr.getLsbD (i - 20) else if i < 28 then cmd.getLsbD (i - 24)
      else if i < 29 then rw.getLsbD (i - 28) else false := by
  have h1 := getLsbD_joined 0b000#3 rw rfl (i - 28)
  have h2 := getLsbD_joined (0b000#3 ++ rw) cmd rfl (i - 24)
  have h3 := getLsbD_joined (0b000#3 ++ rw ++ cmd) addr rfl (i - 20)
  have h4 := getLsbD_joined (0b000#3 ++ rw ++ cmd ++ addr) data rfl (i - 6)
  have h5 := getLsbD_joined (0b000#3 ++ rw ++ cmd ++ addr ++ data) 0b00#2 rfl (i - 4)
  refine Eq.trans (getLsbD_joined (0b000#3 ++ rw ++ cmd ++ addr ++ data ++ 0b00#2) mode rfl i) ?_
  simp only [BitVec.cast_eq, Nat.sub_sub, Nat.reduceAdd] at h1 h2 h3 h4 h5 ⊢
  rw [h5, h4, h3, h2, h1]
  split_ifs <;> first | rfl | (exfalso; omega) | simp

/-- R57: the bits of an F12 frame. -/
theorem getLsbD_packF12 (data : BitVec 12) (i : Nat) :
    (packF12 rw cmd addr data mode).getLsbD i =
      if i < 4 then mode.getLsbD i else if i < 8 then false else if i < 20 then data.getLsbD (i - 8)
      else if i < 24 then addr.getLsbD (i - 20) else if i < 28 then cmd.getLsbD (i - 24)
      else if i < 29 then rw.getLsbD (i - 28) else false := by
  have h1 := getLsbD_joined 0b000#3 rw rfl (i - 28)
  have h2 := getLsbD_joined (0b000#3 ++ rw) cmd rfl (i - 24)
  have h3 := getLsbD_joined (0b000#3 ++ rw ++ cmd) addr rfl (i - 20)
  have h4 := getLsbD_joined (0b000#3 ++ rw ++ cmd ++ addr) data rfl (i - 8)
  have h5 := getLsbD_joined (0b000#3 ++ rw ++ cmd ++ addr ++ data) 0b0000#4 rfl (i - 4)
  refine Eq.trans (getLsbD_joined (0b000#3 ++ rw ++ cmd ++ addr ++ data ++ 0b0000#4) mode rfl i) ?_
  simp only [BitVec.cast_eq, Nat.sub_sub, Nat.reduceAdd] at h1 h2 h3 h4 h5 ⊢
  rw [h5, h4, h3, h2, h1]
  split_ifs <;> first | rfl | (exfalso; omega) | simp

end

/-- R14: bit `i` of byte `k` of a frame. -/
theorem getLsbD_frameByte (F : Frame) (k i : Nat) :
    (frameByte F k).getLsbD i = (decide (i < 8) && F.getLsbD (24 - 8 * k + i)) := by
  simp [frameByte, BitVec.getLsbD_extractLsb']

/-- R35: the bits of a frame made of four bytes. -/
theorem getLsbD_frameOfBytes (b0 b1 b2 b3 : Byte) (i : Nat) :
    (frameOfBytes b0 b1 b2 b3).getLsbD i =
      if i < 8 then b3.getLsbD i else if i < 16 then b2.getLsbD (i - 8) else if i < 24 then b1.getLsbD (i - 16)
      else b0.getLsbD (i - 24) := by
  have h1 := getLsbD_joined b0 b1 rfl (i - 16)
  have h2 := getLsbD_joined (b0 ++ b1) b2 rfl (i - 8)
  refine Eq.trans (getLsbD_joined (b0 ++ b1 ++ b2) b3 rfl i) ?_
  simp only [BitVec.cast_eq, Nat.sub_sub, Nat.reduceAdd] at h1 h2 ⊢
  rw [h2, h1]
  split_ifs <;> first | rfl | (exfalso; omega)

/-- A bit field is the vector whose bits it has. -/
theorem extractLsb'_eq_of_bits {n m : Nat} (F : BitVec n) (a : Nat) (x : BitVec m)
    (h : ∀ i < m, F.getLsbD (a + i) = x.getLsbD i) : F.extractLsb' a m = x := by
  apply BitVec.eq_of_getLsbD_eq
  intro i hi
  simp only [BitVec.getLsbD_extractLsb', hi, decide_true, Bool.true_and, h i hi]

/-- The bytes of a frame made of four bytes are those bytes (R35). -/
@[simp] theorem frameBytes_frameOfBytes (b0 b1 b2 b3 : Byte) :
    frameBytes (frameOfBytes b0 b1 b2 b3) = [b0, b1, b2, b3] := by
  have key : ∀ (k : Nat) (b : Byte), (∀ i < 8, (frameOfBytes b0 b1 b2 b3).getLsbD (24 - 8 * k + i) = b.getLsbD i) →
      frameByte (frameOfBytes b0 b1 b2 b3) k = b := fun k b h => extractLsb'_eq_of_bits _ _ _ h
  simp only [frameBytes, List.cons.injEq, and_true]
  refine ⟨key 0 b0 ?_, key 1 b1 ?_, key 2 b2 ?_, key 3 b3 ?_⟩ <;>
    (intro i hi; rw [getLsbD_frameOfBytes]; interval_cases i <;> simp)

namespace Machine

/-- R69: the data mask clears the low bits that the width does not have. -/
theorem getLsbD_dmask (w : Width) (i : Nat) :
    (dmask w).getLsbD i = (decide (16 - dataBits w ≤ i) && decide (i < 16)) := by
  by_cases hi : i < 16
  · have small : ∀ j < 16, (dmask w).getLsbD j = (decide (16 - dataBits w ≤ j) && decide (j < 16)) := by
      cases w <;> decide
    exact small i hi
  · rw [BitVec.getLsbD_of_ge _ _ (Nat.not_lt.1 hi)]; simp [hi]

/-- R54, R59, R60: the bits of an encoded frame. -/
theorem getLsbD_encodeFrame (w : Width) (d : RawDesc) (i : Nat) :
    (encodeFrame w d).getLsbD i =
      if i < 4 then d.mode.testBit i
      else if i < 20 then d.data.testBit (i - 4) && decide (20 - dataBits w ≤ i)
      else if i < 24 then d.addr.testBit (i - 20) else if i < 28 then d.cmd.testBit (i - 24)
      else if i < 29 then d.rw.testBit (i - 28) else false := by
  have hw : dataBits w ≤ 16 := by cases w <;> decide
  unfold encodeFrame
  rw [getLsbD_packF16]
  split_ifs with h1 h2 h3 h4 h5
  · simp only [BitVec.getLsbD_ofNat, h1, decide_true, Bool.true_and]
  · have e1 : i - 4 < 16 := by omega
    have e2 : (16 - dataBits w ≤ i - 4) ↔ (20 - dataBits w ≤ i) := by omega
    simp only [BitVec.getLsbD_and, BitVec.getLsbD_ofNat, getLsbD_dmask, e1, e2, decide_true, Bool.true_and, Bool.and_true]
  · have e1 : i - 20 < 4 := by omega
    simp only [BitVec.getLsbD_ofNat, e1, decide_true, Bool.true_and]
  · have e1 : i - 24 < 4 := by omega
    simp only [BitVec.getLsbD_ofNat, e1, decide_true, Bool.true_and]
  · have e1 : i - 28 < 1 := by omega
    simp only [BitVec.getLsbD_ofNat, e1, decide_true, Bool.true_and]
  · rfl

end Machine

end Sys2Proof
end

