-- ==== Sys2Proof/Laws/State.lean ====
section
/-! SUPPORT. One lemma per field of the state for each named update of it, true by `rfl`, so that no later proof unfolds
a record update. -/

namespace Sys2Proof.Machine

variable (s : State)

/-! ## The reset event: `resetPulse` -/

@[simp] theorem resetPulse_cfg : (s.resetPulse).cfg = s.cfg := rfl
@[simp] theorem resetPulse_session : (s.resetPulse).session = Session.reset := rfl
@[simp] theorem resetPulse_block : (s.resetPulse).block = Block.reset := rfl
@[simp] theorem resetPulse_dmem : (s.resetPulse).dmem = s.dmem := rfl
@[simp] theorem resetPulse_trace : (s.resetPulse).trace = [] := rfl
@[simp] theorem resetPulse_earlier : (s.resetPulse).earlier = s.earlier ++ s.trace := rfl
@[simp] theorem resetPulse_lines : (s.resetPulse).lines = s.lines := rfl
@[simp] theorem resetPulse_io : (s.resetPulse).io = s.io := rfl
@[simp] theorem resetPulse_env :
    (s.resetPulse).env = { s.env with orphans := s.env.orphans ++ s.block.outstanding.toList } := rfl

/-! ## The passing of one effect: `tick` -/

@[simp] theorem tick_cfg : (s.tick).cfg = s.cfg := rfl
@[simp] theorem tick_session : (s.tick).session = s.session := rfl
@[simp] theorem tick_block : (s.tick).block = s.block := rfl
@[simp] theorem tick_dmem : (s.tick).dmem = s.dmem := rfl
@[simp] theorem tick_trace : (s.tick).trace = s.trace := rfl
@[simp] theorem tick_earlier : (s.tick).earlier = s.earlier := rfl
@[simp] theorem tick_lines : (s.tick).lines = s.lines := rfl
@[simp] theorem tick_io : (s.tick).io = s.io := rfl
@[simp] theorem tick_env : (s.tick).env = { s.env with events := tickEvents s.env.events } := rfl

/-! ## Going on to the next position: `proceed` -/

@[simp] theorem proceed_cfg (f : InFlight) : (s.proceed f).cfg = s.cfg := rfl
@[simp] theorem proceed_session (f : InFlight) : (s.proceed f).session = s.session := rfl
@[simp] theorem proceed_block (f : InFlight) :
    (s.proceed f).block = { s.block with phase := .busy { f with step := f.step + 1, pending := none } } := rfl
@[simp] theorem proceed_dmem (f : InFlight) : (s.proceed f).dmem = s.dmem := rfl
@[simp] theorem proceed_trace (f : InFlight) : (s.proceed f).trace = s.trace := rfl
@[simp] theorem proceed_earlier (f : InFlight) : (s.proceed f).earlier = s.earlier := rfl
@[simp] theorem proceed_lines (f : InFlight) : (s.proceed f).lines = s.lines := rfl
@[simp] theorem proceed_io (f : InFlight) : (s.proceed f).io = s.io := rfl
@[simp] theorem proceed_env (f : InFlight) :
    (s.proceed f).env = { s.env with events := tickEvents s.env.events } := rfl

/-! ## Sending a response: `finish` -/

@[simp] theorem finish_cfg (st : Byte) : (s.finish st).cfg = s.cfg := rfl
@[simp] theorem finish_session (st : Byte) : (s.finish st).session = s.session := rfl
@[simp] theorem finish_block (st : Byte) : (s.finish st).block = { s.block with phase := .idle } := rfl
@[simp] theorem finish_dmem (st : Byte) : (s.finish st).dmem = s.dmem := rfl
@[simp] theorem finish_trace (st : Byte) : (s.finish st).trace = s.trace := rfl
@[simp] theorem finish_earlier (st : Byte) : (s.finish st).earlier = s.earlier := rfl
@[simp] theorem finish_lines (st : Byte) : (s.finish st).lines = s.lines := rfl
@[simp] theorem finish_io (st : Byte) : (s.finish st).io = { s.io with responses := s.io.responses ++ [st] } := rfl
@[simp] theorem finish_env (st : Byte) : (s.finish st).env = { s.env with events := tickEvents s.env.events } := rfl

/-! ## Accepting a request: `accept` -/

@[simp] theorem accept_cfg (i : Instr) : (s.accept i).cfg = s.cfg := rfl
@[simp] theorem accept_session (i : Instr) : (s.accept i).session = s.session := rfl
@[simp] theorem accept_block (i : Instr) :
    (s.accept i).block = { s.block with phase := .busy { op := i, step := 0, ret := statusOk, pending := none } } := rfl
@[simp] theorem accept_dmem (i : Instr) : (s.accept i).dmem = s.dmem := rfl
@[simp] theorem accept_trace (i : Instr) : (s.accept i).trace = s.trace := rfl
@[simp] theorem accept_earlier (i : Instr) : (s.accept i).earlier = s.earlier := rfl
@[simp] theorem accept_lines (i : Instr) : (s.accept i).lines = s.lines := rfl
@[simp] theorem accept_io (i : Instr) : (s.accept i).io = s.io := rfl
@[simp] theorem accept_env (i : Instr) : (s.accept i).env = { s.env with events := tickEvents s.env.events } := rfl

/-! ## The encoder by itself: `emitFrame` -/

@[simp] theorem emitFrame_cfg (w : Width) (d : RawDesc) : (s.emitFrame w d).cfg = s.cfg := rfl
@[simp] theorem emitFrame_session (w : Width) (d : RawDesc) : (s.emitFrame w d).session = s.session := rfl
@[simp] theorem emitFrame_block (w : Width) (d : RawDesc) : (s.emitFrame w d).block = s.block := rfl
@[simp] theorem emitFrame_dmem (w : Width) (d : RawDesc) : (s.emitFrame w d).dmem = s.dmem := rfl
@[simp] theorem emitFrame_trace (w : Width) (d : RawDesc) : (s.emitFrame w d).trace = s.trace := rfl
@[simp] theorem emitFrame_earlier (w : Width) (d : RawDesc) : (s.emitFrame w d).earlier = s.earlier := rfl
@[simp] theorem emitFrame_lines (w : Width) (d : RawDesc) : (s.emitFrame w d).lines = s.lines := rfl
@[simp] theorem emitFrame_io (w : Width) (d : RawDesc) :
    (s.emitFrame w d).io = { s.io with encoded := s.io.encoded ++ [frameBytes (encodeFrame w d)] } := rfl
@[simp] theorem emitFrame_env (w : Width) (d : RawDesc) : (s.emitFrame w d).env = s.env := rfl

/-! ## Taking the first item: `dropItem` -/

@[simp] theorem dropItem_cfg : (s.dropItem).cfg = s.cfg := rfl
@[simp] theorem dropItem_session : (s.dropItem).session = s.session := rfl
@[simp] theorem dropItem_block : (s.dropItem).block = s.block := rfl
@[simp] theorem dropItem_dmem : (s.dropItem).dmem = s.dmem := rfl
@[simp] theorem dropItem_trace : (s.dropItem).trace = s.trace := rfl
@[simp] theorem dropItem_earlier : (s.dropItem).earlier = s.earlier := rfl
@[simp] theorem dropItem_lines : (s.dropItem).lines = s.lines := rfl
@[simp] theorem dropItem_io : (s.dropItem).io = { s.io with port := s.io.port.tail } := rfl
@[simp] theorem dropItem_env : (s.dropItem).env = s.env := rfl

/-! ## Placing a table word: `withFetchWord` -/

@[simp] theorem withFetchWord_cfg (nbits w : Nat) : (s.withFetchWord nbits w).cfg = s.cfg := rfl
@[simp] theorem withFetchWord_session (nbits w : Nat) : (s.withFetchWord nbits w).session = s.session := rfl
@[simp] theorem withFetchWord_block (nbits w : Nat) :
    (s.withFetchWord nbits w).block = { s.block with phase := .idle } := rfl
@[simp] theorem withFetchWord_dmem (nbits w : Nat) : (s.withFetchWord nbits w).dmem = s.dmem := rfl
@[simp] theorem withFetchWord_trace (nbits w : Nat) : (s.withFetchWord nbits w).trace = s.trace := rfl
@[simp] theorem withFetchWord_earlier (nbits w : Nat) : (s.withFetchWord nbits w).earlier = s.earlier := rfl
@[simp] theorem withFetchWord_lines (nbits w : Nat) : (s.withFetchWord nbits w).lines = s.lines := rfl
@[simp] theorem withFetchWord_io (nbits w : Nat) :
    (s.withFetchWord nbits w).io = { s.io with port := tableItem s.cfg nbits w :: s.io.port } := rfl
@[simp] theorem withFetchWord_env (nbits w : Nat) : (s.withFetchWord nbits w).env = { s.env with events := [] } := rfl

/-! ## The phase -/

@[simp] theorem running_busy (acc : Byte) (f : InFlight) :
    (Block.mk (.busy f) acc).running = match f.pending with | none => some f | some _ => none := rfl
@[simp] theorem running_idle (acc : Byte) : (Block.mk .idle acc).running = none := rfl
@[simp] theorem outstanding_busy (acc : Byte) (f : InFlight) : (Block.mk (.busy f) acc).outstanding = f.pending := rfl
@[simp] theorem outstanding_idle (acc : Byte) : (Block.mk .idle acc).outstanding = none := rfl
@[simp] theorem tickEvents_nil : tickEvents [] = [] := rfl
@[simp] theorem badAddress_nil (w : Nat) : badAddress w [] = none := rfl

/-- A running operation is BUSY and waits for no call. -/
theorem running_eq_some (b : Block) (f : InFlight) :
    b.running = some f ↔ b.phase = .busy f ∧ f.pending = none := by
  obtain ⟨phase, acc⟩ := b
  cases phase with
  | idle => simp
  | busy g =>
    obtain ⟨op, st, ret, p⟩ := g
    cases p with
    | none => simp only [running_busy, Option.some.injEq, Phase.busy.injEq]; exact ⟨fun h => ⟨h, h ▸ rfl⟩, fun h => h.1⟩
    | some c => simp only [running_busy, reduceCtorEq, Phase.busy.injEq, false_iff, not_and]; rintro rfl; simp

end Sys2Proof.Machine
end

