-- ==== Sys2Proof/Laws/Ops.lean ====
section
/-! SUPPORT. For each shared operation, once, what it can do: the outside events, a transport call, one effect, running
effects, issuing a request, going on, and the step. -/

namespace Sys2Proof.Machine

/-! ## Outside events -/

/-- Nothing happens when no outside event is to come. -/
theorem deliver_quiet (s : State) (h : s.env.events = []) : s.deliver = s := by
  obtain ⟨cfg, session, block, dmem, trace, earlier, lines, io, ⟨script, polls, events, seen, orphans⟩⟩ := s
  simp only at h
  subst h
  rfl

/-- Nothing passes where no outside event is to come. -/
theorem tick_quiet (s : State) (h : s.env.events = []) : s.tick = s := by
  obtain ⟨cfg, session, block, dmem, trace, earlier, lines, io, ⟨script, polls, events, seen, orphans⟩⟩ := s
  simp only at h
  subst h
  rfl

/-- Accepting a request where no outside event is to come: the block is BUSY with it, and nothing else has moved. -/
theorem accept_quiet (s : State) (i : Instr) (h : s.env.events = []) :
    s.accept i =
      { s with block := { s.block with phase := .busy { op := i, step := 0, ret := statusOk, pending := none } } } :=
  tick_quiet _ h

/-- Nothing happens while the next outside event is not due. -/
theorem deliver_early (s : State) (e : EnvEvent) (es : List EnvEvent) (h : s.env.events = e :: es) (hd : e.delay ≠ 0) :
    s.deliver = s := by
  obtain ⟨cfg, session, block, dmem, trace, earlier, lines, io, ⟨script, polls, events, seen, orphans⟩⟩ := s
  simp only at h
  subst h
  simp only [State.deliver, deliverEvents, hd, if_false]

/-- The one outside event to come happens when it is due. -/
theorem deliver_one (s : State) (act : EnvAct) (h : s.env.events = [{ delay := 0, act := act }]) :
    s.deliver = { s.outside act with env := { (s.outside act).env with events := [] } } := by
  simp only [State.deliver, h, deliverEvents, if_true]

/-- What holds of a state whatever events are listed, and is kept by each of the events to come, is kept by delivering
those that are due. -/
theorem deliver_keeps (P : State → Prop) (s : State)
    (hlist : ∀ u es, P u → P { u with env := { u.env with events := es } })
    (hact : ∀ e ∈ s.env.events, ∀ u, P u → P (u.outside e.act)) (h : P s) : P s.deliver := by
  have main : ∀ (es : List EnvEvent) (t : State),
      (∀ e ∈ es, ∀ u : State, P u → P (u.outside e.act)) → P t → P (deliverEvents es t) := by
    intro es
    induction es with
    | nil => intro t _ ht; exact hlist t _ ht
    | cons e es ih =>
      intro t hes ht
      simp only [deliverEvents]
      split
      · exact ih _ (fun e' he' => hes e' (List.mem_cons_of_mem _ he')) (hes e List.mem_cons_self _ ht)
      · exact hlist t _ ht
  exact main s.env.events s hact h

/-! ## Transport calls -/

/-- A call that has returned: its status is in the trace and is the operation's `s`, and the operation goes on. -/
theorem poll_returned (s : State) (f : InFlight) (c : TCall) (st : Byte)
    (h : s.env.answer s.env.polls = .returned st) :
    s.poll f c =
      { s with
        block := { s.block with phase := .busy { f with step := f.step + 1, ret := st, pending := none } }
        trace := s.trace ++ [.ret st]
        lines := linesAfter c (.returned st) s.env.polls s.lines
        env := { s.env with polls := s.env.polls + 1, events := tickEvents s.env.events } } := by
  simp only [State.poll, h]
  rfl

/-- A call that has not returned: the block waits for it (R113). -/
theorem poll_pending (s : State) (f : InFlight) (c : TCall) (h : s.env.answer s.env.polls = .pending) :
    s.poll f c =
      { s with
        block := { s.block with phase := .busy { f with pending := some c } }
        lines := linesAfter c .pending s.env.polls s.lines
        env := { s.env with polls := s.env.polls + 1, events := tickEvents s.env.events } } := by
  simp only [State.poll, h]
  rfl

/-- Everything that looking at an outstanding call can do. -/
theorem poll_cases (s : State) (f : InFlight) (c : TCall) :
    (∃ st, s.env.answer s.env.polls = .returned st ∧
        s.poll f c =
          { s with
            block := { s.block with phase := .busy { f with step := f.step + 1, ret := st, pending := none } }
            trace := s.trace ++ [.ret st]
            lines := linesAfter c (.returned st) s.env.polls s.lines
            env := { s.env with polls := s.env.polls + 1, events := tickEvents s.env.events } }) ∨
      (s.env.answer s.env.polls = .pending ∧
        s.poll f c =
          { s with
            block := { s.block with phase := .busy { f with pending := some c } }
            lines := linesAfter c .pending s.env.polls s.lines
            env := { s.env with polls := s.env.polls + 1, events := tickEvents s.env.events } }) := by
  cases h : s.env.answer s.env.polls with
  | returned st => exact .inl ⟨st, rfl, poll_returned s f c st h⟩
  | pending => exact .inr ⟨rfl, poll_pending s f c h⟩

/-- Making a call is recording it and looking at it. -/
theorem callTransport_eq (s : State) (f : InFlight) (r : CallReq) :
    s.callTransport f r =
      State.poll { s with trace := s.trace ++ [.call (r.withCtx s.session.ctx)] } f (r.withCtx s.session.ctx) := rfl

/-- The answers do not depend on the count of answers taken. -/
@[simp] theorem answer_polls (e : Env) (k n : Nat) : Env.answer { e with polls := k } n = e.answer n := rfl

/-- Nor do they depend on the outside events. -/
@[simp] theorem answer_events (e : Env) (es : List EnvEvent) (n : Nat) :
    Env.answer { e with events := es } n = e.answer n := rfl

/-! ## Running effects -/

/-- No effect lists an outside event where there was none. -/
theorem perform_quiet (s : State) (f : InFlight) (a : Act) (h : s.env.events = []) :
    (s.perform f a).env.events = [] := by
  cases a with
  | callT r =>
    simp only [State.perform, callTransport_eq]
    rcases poll_cases { s with trace := s.trace ++ [TraceEvent.call (r.withCtx s.session.ctx)] } f
      (r.withCtx s.session.ctx) with ⟨st, -, e⟩ | ⟨-, e⟩ <;> rw [e] <;> simp [h]
  | _ => simp [State.perform, h]

@[simp] theorem runActs_nil (s : State) : runActs [] s = s := rfl

/-- The next effect of a running operation, where no outside event is to come. -/
theorem runActs_running (a : Act) (as : List Act) (s : State) (f : InFlight) (hq : s.env.events = [])
    (hr : s.block.running = some f) : runActs (a :: as) s = runActs as (s.perform f a) := by
  simp only [runActs, deliver_quiet s hq, hr]

/-- No effect is made where the operation waits or is over. -/
theorem runActs_stopped (as : List Act) (s : State) (hq : s.env.events = []) (hr : s.block.running = none) :
    runActs as s = s := by
  cases as with
  | nil => rfl
  | cons a as => simp only [runActs, deliver_quiet s hq, hr]

/-- What outside events keep, and each of the effects keeps, running them keeps. -/
theorem runActs_keeps (P : State → Prop) (hd : ∀ s, P s → P s.deliver) (as : List Act)
    (hp : ∀ s f, ∀ a ∈ as, s.block.running = some f → P s → P (s.perform f a)) (s : State) (h : P s) :
    P (runActs as s) := by
  induction as generalizing s with
  | nil => exact h
  | cons a as ih =>
    simp only [runActs]
    split
    · next f hf =>
      exact ih (fun s f b hb => hp s f b (List.mem_cons_of_mem _ hb)) _
        (hp _ _ a List.mem_cons_self hf (hd s h))
    · exact hd s h

/-! ## Issuing a request, going on, and the step -/

/-- Everything that issuing a request can do when it answers a next state. -/
theorem issue_next (s s' : State) (i : Instr) (effects : Except Refusal (List Act)) (h : s.issue i effects = .next s') :
    s.block.phase = .idle ∧ ∃ acts, effects = .ok acts ∧ s' = runActs acts (s.accept i) := by
  unfold State.issue at h
  split at h
  · cases h
  · next hp =>
    refine ⟨hp, ?_⟩
    split at h
    · cases h
    · cases h; exact ⟨_, rfl, rfl⟩

/-- An IDLE block makes the effects of a request that is not refused. -/
theorem issue_idle (s : State) (i : Instr) (acts : List Act) (h : s.block.phase = .idle) :
    s.issue i (.ok acts) = .next (runActs acts (s.accept i)) := by
  simp only [State.issue, h]

/-- The same where no outside event is to come: the effects run from the state that is BUSY with the request. -/
theorem issue_ready (s : State) (i : Instr) (acts : List Act) (h : s.ready) :
    s.issue i (.ok acts) =
      .next
        (runActs acts
          { s with
            block := { s.block with phase := .busy { op := i, step := 0, ret := statusOk, pending := none } } }) := by
  rw [issue_idle s i acts h.1, accept_quiet s i h.2]

/-- A BUSY block has no step for a request (R140). -/
theorem issue_busy (s : State) (i : Instr) (effects : Except Refusal (List Act)) (f : InFlight)
    (h : s.block.phase = .busy f) : s.issue i effects = .refused .requestWhileBusy := by
  simp only [State.issue, h]

/-- Is the instruction one of the four requests? -/
def isRequest : Instr → Bool
  | .init _ => true
  | .write _ => true
  | .format _ => true
  | .rsvd => true
  | .frameF16 _ _ _ _ _ => false
  | .frameF14 _ _ _ _ _ => false
  | .frameF12 _ _ _ _ _ => false

/-- A request is issued with its effects. -/
theorem exec_request (i : Instr) (s : State) (h : isRequest i = true) : exec i s = s.issue i (actsOf i s) := by
  cases i <;> first | rfl | cases h

/-- Everything that an instruction can do when it answers a next state: a request's effects are run, or the encoder
returns a frame. -/
theorem exec_next (i : Instr) (s s' : State) (h : exec i s = .next s') :
    (s.block.phase = .idle ∧ ∃ acts, actsOf i s = .ok acts ∧ s' = runActs acts (s.accept i)) ∨
      (∃ w d, s' = s.emitFrame w d) := by
  by_cases hr : isRequest i = true
  · rw [exec_request i s hr] at h
    exact .inl (issue_next s s' i _ h)
  · refine .inr ?_
    cases i <;> first | exact absurd rfl hr | (cases h; exact ⟨_, _, rfl⟩)

/-- Everything that going on can do when it answers a next state. -/
theorem resume_next (s s' : State) (f : InFlight) (h : s.resume f = .next s') :
    ∃ t, (t = s ∨ ∃ c, f.pending = some c ∧ t = s.poll f c) ∧
      ((t.block.running = none ∧ s' = t) ∨
        ∃ g acts, t.block.running = some g ∧ actsOf g.op t = .ok acts ∧ s' = runActs (acts.drop g.step) t) := by
  have key : ∀ t : State, (match t.block.running with
      | none => Host.Outcome.next t
      | some g =>
        match actsOf g.op t with
        | .error r => .refused r
        | .ok acts => .next (runActs (acts.drop g.step) t) : Host.Outcome State Fault Refusal) = .next s' →
      (t.block.running = none ∧ s' = t) ∨
        ∃ g acts, t.block.running = some g ∧ actsOf g.op t = .ok acts ∧ s' = runActs (acts.drop g.step) t := by
    intro t ht
    split at ht
    · next hn => cases ht; exact .inl ⟨hn, rfl⟩
    · next g hg =>
      split at ht
      · cases ht
      · next acts ha => cases ht; exact .inr ⟨g, acts, hg, ha, rfl⟩
  unfold State.resume at h
  cases hp : f.pending with
  | none => rw [hp] at h; exact ⟨s, .inl rfl, key s h⟩
  | some c => rw [hp] at h; exact ⟨s.poll f c, .inr ⟨c, rfl, rfl⟩, key _ h⟩

/-- Everything that a step can do when it answers a next state. -/
theorem step_next (s s' : State) (h : step s = .next s') :
    badAddress s.cfg.addrW s.env.events = none ∧
      ((∃ f, s.deliver.block.phase = .busy f ∧ s.deliver.resume f = .next s') ∨
        (s.deliver.block.phase = .idle ∧ s.deliver.fetch = none ∧ s' = s.deliver.tick) ∨
        ∃ item i, s.deliver.block.phase = .idle ∧ s.deliver.fetch = some item ∧
          decode s.deliver.cfg item = .ok i ∧ exec i s.deliver.dropItem = .next s') := by
  unfold step at h
  split at h
  · cases h
  · next hb =>
    refine ⟨hb, ?_⟩
    simp only at h
    split at h
    · next f hf => exact .inl ⟨f, hf, h⟩
    · next hi =>
      split at h
      · next hn => cases h; exact .inr (.inl ⟨hi, hn, rfl⟩)
      · next item hs =>
        split at h
        · cases h
        · next i hd => exact .inr (.inr ⟨item, i, hi, hs, hd, h⟩)

/-- A step of an IDLE block with no outside event to come: it takes the first item, or waits. -/
theorem step_ready (s : State) (h : s.ready) :
    step s =
      match s.fetch with
      | none => .next s.tick
      | some item =>
        match decode s.cfg item with
        | .error e => .refused (.undecodable e)
        | .ok i => exec i s.dropItem := by
  unfold step
  rw [h.2]
  simp only [badAddress_nil, deliver_quiet s h.2, h.1]
  all_goals rfl

/-- A step of a BUSY block with no outside event to come: it goes on. -/
theorem step_busy (s : State) (f : InFlight) (h : s.env.events = []) (hf : s.block.phase = .busy f) :
    step s = s.resume f := by
  unfold step
  rw [h]
  simp only [badAddress_nil, deliver_quiet s h, hf]

/-- What outside events, effects, looking at a call, the passing of an idle step, taking an item, accepting and the
encoder keep, every step keeps. -/
theorem step_keeps (P : State → Prop) (hd : ∀ s, P s → P s.deliver)
    (hpoll : ∀ s f c, s.block.phase = .busy f → f.pending = some c → P s → P (s.poll f c))
    (hperform : ∀ s f a, s.block.running = some f → P s → P (s.perform f a))
    (htick : ∀ s, P s → P s.tick) (hdrop : ∀ s, P s → P s.dropItem) (haccept : ∀ s i, P s → P (s.accept i))
    (hemit : ∀ s w d, P s → P (s.emitFrame w d)) (s s' : State) (h : step s = .next s') (hs : P s) : P s' := by
  have hrun : ∀ acts t, P t → P (runActs acts t) := fun acts t ht =>
    runActs_keeps P hd acts (fun u f a _ hr hu => hperform u f a hr hu) t ht
  obtain ⟨-, ⟨f, hf, hres⟩ | ⟨-, -, rfl⟩ | ⟨item, i, -, -, -, he⟩⟩ := step_next s s' h
  · obtain ⟨t, ht, hcase⟩ := resume_next _ _ _ hres
    have hPt : P t := by
      rcases ht with rfl | ⟨c, hc, rfl⟩
      · exact hd s hs
      · exact hpoll _ _ _ hf hc (hd s hs)
    rcases hcase with ⟨-, rfl⟩ | ⟨g, acts, -, -, rfl⟩
    · exact hPt
    · exact hrun _ _ hPt
  · exact htick _ (hd s hs)
  · rcases exec_next i _ s' he with ⟨-, acts, -, rfl⟩ | ⟨w, d, rfl⟩
    · exact hrun _ _ (haccept _ _ (hdrop _ (hd s hs)))
    · exact hemit _ _ _ (hdrop _ (hd s hs))

end Sys2Proof.Machine
end

