-- ==== Sys2Proof/Laws/PerInstr.lean ====
section
/-! SUPPORT. Per instruction, one lemma each: what `encode` puts at the block's input has the size its port has. A host
request fills the request record whatever its operation (R51, R53); a frame has 4 bytes in every format (R3, R14). -/

namespace Sys2Proof.Laws

/-- The number of bytes of an input item. -/
def itemBytes : PortItem → Nat
  | .request bs => bs.length
  | .frame _ bs => bs.length

/-- The number of bytes that the port of an instruction takes. -/
def portBytes (c : Config) : Instr → Nat
  | .init _ => requestBytes c
  | .write _ => requestBytes c
  | .format _ => requestBytes c
  | .rsvd => requestBytes c
  | .frameF16 _ _ _ _ _ => 4
  | .frameF14 _ _ _ _ _ => 4
  | .frameF12 _ _ _ _ _ => 4

/-- The encoded item of an instruction has the size of its port, for every choice of the parameters. -/
def EncodedShape.Statement (i : Instr) : Prop := ∀ c : Config, itemBytes (encode c i) = portBytes c i

theorem EncodedShape.init (q : InitArgs) : EncodedShape.Statement (.init q) := fun _ => toBytesLE_length _ _

theorem EncodedShape.write (q : WriteArgs) : EncodedShape.Statement (.write q) := fun _ => toBytesLE_length _ _

theorem EncodedShape.format (q : FormatArgs) : EncodedShape.Statement (.format q) := fun _ => toBytesLE_length _ _

theorem EncodedShape.rsvd : EncodedShape.Statement .rsvd := fun _ => toBytesLE_length _ _

theorem EncodedShape.frameF16 (rw : BitVec 1) (cmd addr : BitVec 4) (data : BitVec 16) (mode : BitVec 4) :
    EncodedShape.Statement (.frameF16 rw cmd addr data mode) := fun _ => rfl

theorem EncodedShape.frameF14 (rw : BitVec 1) (cmd addr : BitVec 4) (data : BitVec 14) (mode : BitVec 4) :
    EncodedShape.Statement (.frameF14 rw cmd addr data mode) := fun _ => rfl

theorem EncodedShape.frameF12 (rw : BitVec 1) (cmd addr : BitVec 4) (data : BitVec 12) (mode : BitVec 4) :
    EncodedShape.Statement (.frameF12 rw cmd addr data mode) := fun _ => rfl

end Sys2Proof.Laws
end

