-- ==== Sys2Proof/Laws/Runs.lean ====
section
/-! SUPPORT. Running the effects of an operation where no outside event is to come: one priming call of INIT, the shift
call of WRITE, the byte writes of FORMAT, a response. -/

namespace Sys2Proof.Machine

/-- A response ends the operation (R82). -/
theorem runActs_respond (s : State) (f : InFlight) (st : Byte) (as : List Act) (hq : s.env.events = [])
    (hr : s.block.running = some f) :
    runActs (.respond st :: as) s =
      { s with block := { s.block with phase := .idle }
               io := { s.io with responses := s.io.responses ++ [st] } } := by
  rw [runActs_running _ _ _ f hq hr, runActs_stopped _ _ (perform_quiet _ _ _ hq) rfl]
  show s.finish st = _
  unfold State.finish
  rw [tick_quiet _ (by exact hq)]

/-- INIT's response: the OR in B.acc goes out, and the block keeps no copy of it (R26, R87). -/
theorem runActs_respondAcc (s : State) (f : InFlight) (as : List Act) (hq : s.env.events = [])
    (hr : s.block.running = some f) :
    runActs (.respondAcc :: as) s =
      { s with block := Block.reset
               io := { s.io with responses := s.io.responses ++ [s.block.acc] } } := by
  rw [runActs_running _ _ _ f hq hr, runActs_stopped _ _ (perform_quiet _ _ _ hq) rfl]
  simp only [State.perform, State.finish]
  rw [tick_quiet _ (by exact hq)]
  rfl

/-- The response of a failed check: the status and nothing else (R83). -/
theorem issue_raise (s : State) (i : Instr) (st : Byte) (h : s.ready) : s.issue i (.ok (raise st)) = .next (s.reply st) := by
  rw [issue_ready s i _ h, raise, runActs_respond _ _ st [] (by exact h.2) (by rfl)]
  congr 1
  obtain ⟨cfg, session, ⟨phase, acc⟩, dmem, trace, earlier, lines, io, env⟩ := s
  obtain ⟨h1, -⟩ := h
  simp only at h1
  subst h1
  rfl

/-- A priming call that the transport does not have is skipped silently (R87). -/
@[simp] theorem primeActs_false (r : CallReq) : primeActs false r = [] := rfl
@[simp] theorem primeActs_true (r : CallReq) : primeActs true r = [.callT r, .orAcc] := rfl

/-- A call that returns: its two events are in the trace, and the operation goes on with its status. -/
theorem runActs_call_returned (s : State) (f : InFlight) (r : CallReq) (st : Byte) (as : List Act)
    (hq : s.env.events = []) (hr : s.block.running = some f) (ha : s.env.answer s.env.polls = .returned st) :
    runActs (.callT r :: as) s =
      runActs as
        { s with
          block := { s.block with phase := .busy { f with step := f.step + 1, ret := st, pending := none } }
          trace := s.trace ++ [.call (r.withCtx s.session.ctx), .ret st]
          lines := linesAfter (r.withCtx s.session.ctx) (.returned st) s.env.polls s.lines
          env := { s.env with polls := s.env.polls + 1 } } := by
  rw [runActs_running _ _ _ f hq hr]
  simp only [State.perform, callTransport_eq]
  rw [poll_returned _ f _ st (by exact ha)]
  simp only [List.append_assoc, List.cons_append, List.nil_append, hq, tickEvents_nil]

/-- A call that does not return: the block waits for it (R113). -/
theorem runActs_call_pending (s : State) (f : InFlight) (r : CallReq) (as : List Act)
    (hq : s.env.events = []) (hr : s.block.running = some f) (ha : s.env.answer s.env.polls = .pending) :
    runActs (.callT r :: as) s =
      { s with
        block := { s.block with phase := .busy { f with pending := some (r.withCtx s.session.ctx) } }
        trace := s.trace ++ [.call (r.withCtx s.session.ctx)]
        lines := linesAfter (r.withCtx s.session.ctx) .pending s.env.polls s.lines
        env := { s.env with polls := s.env.polls + 1 } } := by
  rw [runActs_running _ _ _ f hq hr]
  simp only [State.perform, callTransport_eq]
  rw [poll_pending _ f _ (by exact ha), runActs_stopped _ _ (by simp [hq]) rfl]
  simp only [hq, tickEvents_nil]

/-- ORing the last status into B.acc (R87). -/
theorem runActs_orAcc (s : State) (f : InFlight) (as : List Act) (hq : s.env.events = [])
    (hr : s.block.running = some f) :
    runActs (.orAcc :: as) s =
      runActs as
        { s with
          block := { phase := .busy { f with step := f.step + 1, pending := none }, acc := s.block.acc ||| f.ret } } := by
  rw [runActs_running _ _ _ f hq hr]
  simp only [State.perform, State.proceed]
  rw [tick_quiet _ (by exact hq)]
  rfl

/-- The commit and the clearing of B.acc (R86, R87). -/
theorem runActs_commit (s : State) (f : InFlight) (ses : Session) (as : List Act) (hq : s.env.events = [])
    (hr : s.block.running = some f) :
    runActs (.commit ses :: .clearAcc :: as) s =
      runActs as
        { s with
          session := ses
          block := { phase := .busy { f with step := f.step + 2, pending := none }, acc := 0x00 } } := by
  rw [runActs_running _ _ _ f hq hr]
  simp only [State.perform, State.proceed]
  rw [tick_quiet _ (by exact hq), runActs_running _ _ _ { f with step := f.step + 1, pending := none } (by exact hq) (by rfl)]
  simp only [State.perform, State.proceed]
  rw [tick_quiet _ (by exact hq)]
  rfl

/-- The effects of the priming calls of a list (R87). -/
def primeList (rs : List CallReq) : List Act := rs.flatMap fun r => [.callT r, .orAcc]

/-- The priming calls that an INIT makes (R87). -/
def primingReqs (q : InitArgs) : List CallReq :=
  (if q.capClr then [CallReq.setClr 1] else []) ++ (if q.capLdac then [CallReq.setLdac 0] else []) ++
    (if q.capSel then [CallReq.setSelect 1] else [])

/-- INIT's effects when its checks pass: the commit, the priming calls, the response. -/
theorem initActs_valid (q : InitArgs) (h1 : q.hv = true) (h2 : q.tp = true) (h3 : q.variant ≤ 2) :
    initActs q = .commit (initSession q) :: .clearAcc :: (primeList (primingReqs q) ++ [.respondAcc]) := by
  obtain ⟨hv, variant, tp, cs, csel, cldac, cclr, ctx⟩ := q
  simp only at h1 h2 h3
  subst h1 h2
  simp only [initActs, Bool.true_eq_false, if_false, Nat.not_lt.2 h3]
  cases csel <;> cases cldac <;> cases cclr <;> rfl

/-- The priming calls with INIT's context are those the statements name. -/
theorem primingReqs_withCtx (q : InitArgs) : (primingReqs q).map (·.withCtx q.ctx) = primingCalls q := by
  unfold primingReqs primingCalls
  cases q.capClr <;> cases q.capLdac <;> cases q.capSel <;> rfl

/-- Priming calls that all return: each is made before the next, every status is ORed in, and B.step moves on by two for
each (R87). The lines move as the calls' answers say, one call after the other. -/
theorem runActs_primes_returned (rs : List CallReq) (sts : List Byte) (as : List Act) (s : State) (f : InFlight)
    (hq : s.env.events = []) (hp : s.block.phase = .busy f) (hn : f.pending = none) (hlen : sts.length = rs.length)
    (hr : s.returnsNext sts) :
    ∃ ret l, runActs (primeList rs ++ as) s =
        runActs as
          { s with
            block := { phase := .busy { f with step := f.step + 2 * rs.length, ret := ret },
                       acc := sts.foldl (· ||| ·) s.block.acc }
            trace := s.trace ++ callLog (rs.map (·.withCtx s.session.ctx)) sts
            lines := l
            env := { s.env with polls := s.env.polls + rs.length } } ∧
      l = ((rs.map (·.withCtx s.session.ctx)).zip (sts.zip (List.range' s.env.polls rs.length))).foldl
            (fun l x => linesAfter x.1 (.returned x.2.1) x.2.2 l) s.lines := by
  induction rs generalizing sts s f with
  | nil =>
    cases sts with
    | nil =>
      refine ⟨f.ret, s.lines, ?_, rfl⟩
      obtain ⟨cfg, session, ⟨phase, acc⟩, dmem, trace, earlier, lines, io, env⟩ := s
      simp only at hp
      subst hp
      simp [primeList, callLog]
    | cons st sts => simp at hlen
  | cons r rs ih =>
    cases sts with
    | nil => simp at hlen
    | cons st sts =>
      have ha : s.env.answer s.env.polls = .returned st := hr 0 st rfl
      simp only [primeList, List.flatMap_cons, List.cons_append, List.nil_append]
      rw [runActs_call_returned s f r st _ hq ((running_eq_some _ _).2 ⟨hp, hn⟩) ha,
        runActs_orAcc _ { f with step := f.step + 1, ret := st, pending := none } _ (by exact hq) rfl]
      obtain ⟨ret, l, he, hl⟩ := ih sts
        { s with
          block := { phase := .busy { f with step := f.step + 1 + 1, ret := st, pending := none },
                     acc := s.block.acc ||| st }
          trace := s.trace ++ [.call (r.withCtx s.session.ctx), .ret st]
          lines := linesAfter (r.withCtx s.session.ctx) (.returned st) s.env.polls s.lines
          env := { s.env with polls := s.env.polls + 1 } }
        { f with step := f.step + 1 + 1, ret := st, pending := none } hq rfl rfl (by simpa using hlen)
        (fun k x hx => by
          have := hr (k + 1) x hx
          simp only [answer_polls]
          rw [← this]; congr 1; omega)
      refine ⟨ret, l, ?_, ?_⟩
      · simp only [primeList] at he
        rw [he]
        simp only [List.length_cons, List.map_cons, callLog, List.append_assoc, List.cons_append, List.nil_append,
          List.foldl_cons, hn]
        congr 2
        · congr 3; omega
        · congr 1; omega
      · rw [hl]
        simp only [List.length_cons, List.map_cons, List.range'_succ, List.zip_cons_cons, List.foldl_cons]

/-- Priming calls of which the one after those that return does not: the block waits for it, the calls before it made and
their statuses ORed in (R113). -/
theorem runActs_primes_pending (rs : List CallReq) (sts : List Byte) (r : CallReq) (as : List Act) (s : State)
    (f : InFlight) (hq : s.env.events = []) (hp : s.block.phase = .busy f) (hn : f.pending = none)
    (hc : rs[sts.length]? = some r) (hr : s.returnsNext sts)
    (hpend : s.env.answer (s.env.polls + sts.length) = .pending) :
    ∃ ret l, runActs (primeList rs ++ as) s =
      { s with
        block := { phase := .busy { op := f.op, step := f.step + 2 * sts.length, ret := ret,
                                    pending := some (r.withCtx s.session.ctx) },
                   acc := sts.foldl (· ||| ·) s.block.acc }
        trace := s.trace ++ callLog (rs.map (·.withCtx s.session.ctx)) sts ++ [.call (r.withCtx s.session.ctx)]
        lines := l
        env := { s.env with polls := s.env.polls + sts.length + 1 } } := by
  induction sts generalizing rs s f with
  | nil =>
    cases rs with
    | nil => simp at hc
    | cons r' rs =>
      simp only [List.length_nil, List.getElem?_cons_zero, Option.some.injEq] at hc
      subst hc
      refine ⟨f.ret, linesAfter (r'.withCtx s.session.ctx) .pending s.env.polls s.lines, ?_⟩
      simp only [primeList, List.flatMap_cons, List.cons_append, List.nil_append]
      rw [runActs_call_pending s f r' _ hq ((running_eq_some _ _).2 ⟨hp, hn⟩) hpend]
      simp [callLog]
  | cons st sts ih =>
    cases rs with
    | nil => simp at hc
    | cons r' rs =>
      have ha : s.env.answer s.env.polls = .returned st := hr 0 st rfl
      simp only [primeList, List.flatMap_cons, List.cons_append, List.nil_append]
      rw [runActs_call_returned s f r' st _ hq ((running_eq_some _ _).2 ⟨hp, hn⟩) ha,
        runActs_orAcc _ { f with step := f.step + 1, ret := st, pending := none } _ (by exact hq) rfl]
      obtain ⟨ret, l, he⟩ := ih rs
        { s with
          block := { phase := .busy { f with step := f.step + 1 + 1, ret := st, pending := none },
                     acc := s.block.acc ||| st }
          trace := s.trace ++ [.call (r'.withCtx s.session.ctx), .ret st]
          lines := linesAfter (r'.withCtx s.session.ctx) (.returned st) s.env.polls s.lines
          env := { s.env with polls := s.env.polls + 1 } }
        { f with step := f.step + 1 + 1, ret := st, pending := none } hq rfl rfl (by simpa using hc)
        (fun k x hx => by
          have := hr (k + 1) x hx
          simp only [answer_polls]
          rw [← this]; congr 1; omega)
        (by
          simp only [answer_polls]
          rw [← hpend]; congr 1; simp only [List.length_cons]; omega)
      refine ⟨ret, l, ?_⟩
      simp only [primeList] at he
      have e1 : f.step + 1 + 1 + 2 * sts.length = f.step + 2 * (sts.length + 1) := by omega
      have e2 : s.env.polls + 1 + sts.length + 1 = s.env.polls + (sts.length + 1) + 1 := by omega
      rw [he]
      simp only [List.length_cons, List.map_cons, callLog, List.append_assoc, List.cons_append, List.nil_append,
        List.foldl_cons, e1, e2]

/-- What the byte writes of a list give, one after the other (R94). -/
def storeAll : List (Nat × Byte) → List Host.Cell → List Host.Cell
  | [], m => m
  | (a, b) :: l, m => storeAll l (dmemWrite m a b)

/-- Byte writes change DMEM and the position, and nothing else (R39). -/
theorem runActs_stores (l : List (Nat × Byte)) (as : List Act) (s : State) (f : InFlight) (hq : s.env.events = [])
    (hp : s.block.phase = .busy f) (hn : f.pending = none) :
    runActs (l.map (fun p => Act.store p.1 p.2) ++ as) s =
      runActs as
        { s with
          block := { s.block with phase := .busy { f with step := f.step + l.length } }
          dmem := storeAll l s.dmem } := by
  induction l generalizing s f with
  | nil =>
    obtain ⟨cfg, session, ⟨phase, acc⟩, dmem, trace, earlier, lines, io, env⟩ := s
    simp only at hp
    subst hp
    rfl
  | cons p l ih =>
    simp only [List.map_cons, List.cons_append]
    rw [runActs_running _ _ _ f hq ((running_eq_some _ _).2 ⟨hp, hn⟩)]
    have hperf : s.perform f (.store p.1 p.2) =
        { s with
          block := { s.block with phase := .busy { f with step := f.step + 1, pending := none } }
          dmem := dmemWrite s.dmem p.1 p.2 } := by
      simp only [State.perform, State.proceed]
      rw [tick_quiet _ (by exact hq)]
    rw [hperf, ih _ { f with step := f.step + 1, pending := none } (by exact hq) (by rfl) (by rfl)]
    simp only [storeAll, List.length_cons, hn, Nat.add_assoc, Nat.add_comm 1]

/-- A byte that none of the writes names keeps its value. -/
theorem dmemFind_storeAll_other (l : List (Nat × Byte)) (m : List Host.Cell) (c : Nat) (h : ∀ p ∈ l, p.1 ≠ c) :
    dmemFind (storeAll l m) c = dmemFind m c := by
  induction l generalizing m with
  | nil => rfl
  | cons p l ih =>
    have hne : c ≠ p.1 := fun e => h p List.mem_cons_self e.symm
    rw [storeAll, ih _ (fun q hq => h q (List.mem_cons_of_mem _ hq)), dmemFind_write_other _ _ _ _ hne]

end Sys2Proof.Machine
end

