-- ==== Sys2Proof/Machine/Assembly.lean ====
section
/-! DEFINITION. The textual syntax of host requests (30_encoding.md R67; decision D22). One line is one request; the
result is a request record of R51. The spec does not say what a line that is not of the syntax means: it is refused by
name (log entry 14). -/

namespace Sys2Proof.Machine

/-- Why a line is no request of R67. -/
inductive AsmError where
  /-- the first word is none of INIT, WRITE, FORMAT and RSVD -/
  | mnemonic
  /-- an operand that the mnemonic does not have, that stands twice, or that has no `=` -/
  | operand
  /-- an operand that R67 shows without brackets, and that is no descriptor field, is left out -/
  | missing
  /-- the text after `=` is not of the operand's form -/
  | value
  /-- a number that does not fit its field (R51) -/
  | range
deriving DecidableEq, Repr

/-- The pieces of a text between the separators. -/
def splitText (sep : Char) : List Char → List (List Char)
  | [] => [[]]
  | c :: cs =>
    if c = sep then [] :: splitText sep cs
    else
      match splitText sep cs with
      | [] => [[c]]
      | w :: ws => (c :: w) :: ws

/-- The words of a line, up to the comment that `;` starts. -/
def lineWords (line : List Char) : List (List Char) :=
  (splitText ' ' (line.takeWhile fun c => c != ';')).filter fun w => !w.isEmpty

/-- The value of a digit, hexadecimal digits among them. -/
def digitValue (c : Char) : Option Nat :=
  let n := c.toNat
  if 48 ≤ n ∧ n ≤ 57 then some (n - 48)
  else if 97 ≤ n ∧ n ≤ 102 then some (n - 87)
  else if 65 ≤ n ∧ n ≤ 70 then some (n - 55)
  else none

/-- The number of digits in a base, most significant first. -/
def digitsValue (base : Nat) : List Char → Nat → Option Nat
  | [], acc => some acc
  | c :: cs, acc =>
    match digitValue c with
    | some d => if d < base then digitsValue base cs (acc * base + d) else none
    | none => none

/-- "Numbers are decimal, or hexadecimal with `0x`." -/
def numberValue : List Char → Option Nat
  | [] => none
  | ['0', 'x'] => none
  | '0' :: 'x' :: cs => digitsValue 16 cs 0
  | cs => digitsValue 10 cs 0

/-- The operands of a line by name: the text before and after the first `=`. -/
def operandPair (w : List Char) : Option (List Char × List Char) :=
  match w.dropWhile fun c => c != '=' with
  | _ :: value => some (w.takeWhile fun c => c != '=', value)
  | [] => none

/-- All operands of a line, each of them one that the mnemonic has, none twice. -/
def operandTable (allowed : List (List Char)) (ws : List (List Char)) : Except AsmError (List (List Char × List Char)) :=
  match ws.mapM operandPair with
  | none => .error .operand
  | some table =>
    if (table.all fun p => allowed.contains p.1) && decide ((table.map Prod.fst).Nodup) then .ok table
    else .error .operand

/-- The value of an operand that is a number below `2 ^ width`; `default` where it may be left out. -/
def numberOperand (table : List (List Char × List Char)) (name : List Char) (width : Nat) (default : Option Nat) :
    Except AsmError Nat :=
  match table.lookup name with
  | none => match default with | some d => .ok d | none => .error .missing
  | some text =>
    match numberValue text with
    | none => .error .value
    | some n => if n < 2 ^ width then .ok n else .error .range

/-- `rw=W` is 0, `rw=R` is 1; left out it is 0. -/
def rwOperand (table : List (List Char × List Char)) : Except AsmError (BitVec 1) :=
  match table.lookup ['r', 'w'] with
  | none => .ok 0
  | some ['W'] => .ok 0
  | some ['R'] => .ok 1
  | some _ => .error .value

/-- The descriptor; a field left out is 0. -/
def descOperands (table : List (List Char × List Char)) : Except AsmError Desc := do
  let rw ← rwOperand table
  let cmd ← numberOperand table "cmd".toList 4 (some 0)
  let addr ← numberOperand table "addr".toList 4 (some 0)
  let data ← numberOperand table "data".toList 16 (some 0)
  let mode ← numberOperand table "mode".toList 4 (some 0)
  .ok { rw := rw, cmd := BitVec.ofNat 4 cmd, addr := BitVec.ofNat 4 addr, data := BitVec.ofNat 16 data,
        mode := BitVec.ofNat 4 mode }

/-- `hv` defaults to 1. -/
def hvOperand (table : List (List Char × List Char)) : Except AsmError Bool := do
  let n ← numberOperand table "hv".toList 1 (some 1)
  .ok (n != 0)

/-- The functions listed between the braces of `tp`. -/
def capNames (text : List Char) : Option (List (List Char)) :=
  match text with
  | '\x7b' :: rest =>
    match rest.reverse with
    | '\x7d' :: inside =>
      let names := if inside.isEmpty then [] else splitText ',' inside.reverse
      if (names.all fun n => ["shift".toList, "sel".toList, "ldac".toList, "clr".toList].contains n) then some names
      else none
    | _ => none
  | _ => none

/-- `tp=none`, or `tp` with the list of the functions the transport has. -/
def tpOperand (table : List (List Char × List Char)) : Except AsmError (Option (List (List Char))) :=
  match table.lookup "tp".toList with
  | none => .error .missing
  | some text =>
    if text = "none".toList then .ok none
    else match capNames text with | some names => .ok (some names) | none => .error .value

/-- `dest=none`, or `dest` with an address. -/
def destOperand (c : Config) (table : List (List Char × List Char)) : Except AsmError (Option Nat) :=
  if table.lookup "dest".toList = some "none".toList then .ok none
  else
    match numberOperand table "dest".toList c.addrW none with
    | .ok n => .ok (some n)
    | .error e => .error e

/-- The names of the descriptor's operands and of `hv`. -/
def descNames : List (List Char) :=
  ["rw".toList, "cmd".toList, "addr".toList, "data".toList, "mode".toList, "hv".toList]

/-- INIT's operands. -/
def assembleInit (c : Config) (ws : List (List Char)) : Except AsmError Request := do
  let table ← operandTable ["v".toList, "tp".toList, "ctx".toList, "hv".toList] ws
  let variant ← numberOperand table "v".toList c.variantInW none
  let tp ← tpOperand table
  let ctx ← numberOperand table "ctx".toList c.ctxW none
  let hv ← hvOperand table
  let names := tp.getD []
  .ok { Request.blank with
        op := 0b00, hv := hv, variant := variant, tp := tp.isSome, capShift := names.contains "shift".toList,
        capSel := names.contains "sel".toList, capLdac := names.contains "ldac".toList,
        capClr := names.contains "clr".toList, ctx := ctx }

/-- WRITE's operands. -/
def assembleWrite (ws : List (List Char)) : Except AsmError Request := do
  let table ← operandTable descNames ws
  let desc ← descOperands table
  let hv ← hvOperand table
  .ok { Request.blank with op := 0b01, hv := hv, desc := desc }

/-- FORMAT's operands. -/
def assembleFormat (c : Config) (ws : List (List Char)) : Except AsmError Request := do
  let table ← operandTable ("dest".toList :: "len".toList :: descNames) ws
  let dest ← destOperand c table
  let length ← numberOperand table "len".toList c.lenW none
  let desc ← descOperands table
  let hv ← hvOperand table
  .ok { Request.blank with
        op := 0b10, hv := hv, desc := desc, dv := dest.isSome, destBase := dest.getD 0, length := length }

/-- RSVD has no operands. -/
def assembleRsvd (ws : List (List Char)) : Except AsmError Request :=
  if ws.isEmpty then .ok { Request.blank with op := 0b11 } else .error .operand

/-- One line of a test program (R67): `none` for a line with nothing but a comment. -/
def assembleLine (c : Config) (line : List Char) : Except AsmError (Option Request) :=
  match lineWords line with
  | [] => .ok none
  | m :: ws =>
    let one : Except AsmError Request :=
      if m = "INIT".toList then assembleInit c ws
      else if m = "WRITE".toList then assembleWrite ws
      else if m = "FORMAT".toList then assembleFormat c ws
      else if m = "RSVD".toList then assembleRsvd ws
      else .error .mnemonic
    match one with
    | .ok q => .ok (some q)
    | .error e => .error e

/-- The input items of a test program, one line after the other. -/
def assembleProgram (c : Config) : List (List Char) → Except AsmError (List PortItem)
  | [] => .ok []
  | line :: lines =>
    match assembleLine c line, assembleProgram c lines with
    | .ok none, rest => rest
    | .ok (some q), .ok items => .ok (.request (q.toBytes c) :: items)
    | .ok (some _), .error e => .error e
    | .error e, _ => .error e

end Sys2Proof.Machine
end

