-- ==== Sys2Proof/Tests/Slice0.lean ====
section
/-! SUPPORT. Tests with expected values from 95_test_vectors.md (the vector is named at each) or written out from a rule,
and for every statement of Obligations.lean that has hypotheses a `witness_` theorem: a state and operands that meet them
together. -/

namespace Sys2Proof.Tests

open Sys2Proof.Machine

/-! ## Small states -/

/-- The next state of an outcome, if it is one. -/
def nextOf : Host.Outcome State Fault Refusal → Option State
  | .next t => some t
  | .fault _ => none
  | .refused _ => none

/-- The reason of a refusal. -/
def refusalOf : Host.Outcome State Fault Refusal → Option Refusal
  | .next _ => none
  | .fault _ => none
  | .refused r => some r

/-- The reset state with a session and the transport's first answers. -/
def st (ses : Session) (script : List Answer) : State :=
  { State.reset with session := ses, env := { State.reset.env with script := script } }

/-- The session after I5: variant 0, the shift function alone, context 9. -/
def sesI5 : Session :=
  { variant := 0, tp := true, capShift := true, capSel := false, capLdac := false, capClr := false, ctx := 9 }

/-- The session after I10: variant 2, a transport with no function. -/
def sesI10 : Session :=
  { variant := 2, tp := true, capShift := false, capSel := false, capLdac := false, capClr := false, ctx := 0 }

/-- I6: `INIT v=1` with all four functions and context 2. -/
def initI6 : InitArgs :=
  { hv := true, variant := 1, tp := true, capShift := true, capSel := true, capLdac := true, capClr := true, ctx := 2 }

/-- The session after I6. -/
def sesI6 : Session :=
  { variant := 1, tp := true, capShift := true, capSel := true, capLdac := true, capClr := true, ctx := 2 }

/-- The descriptor of W4. -/
def descW4 : Desc := { rw := 0, cmd := 0x3, addr := 0x0, data := 0x8000, mode := 0x0 }

def writeW4 : WriteArgs := { hv := true, desc := descW4 }

/-- The descriptor of the FORMAT vectors. -/
def descF : Desc := { rw := 1, cmd := 0x2, addr := 0x3, data := 0x4567, mode := 0x8 }

/-- A FORMAT of the vectors' descriptor. -/
def fmt (dest length : Nat) : FormatArgs := { hv := true, dv := true, destBase := dest, length := length, desc := descF }

/-- A state with one request at the input. -/
def withItem (s : State) (i : Instr) : State := { s with io := { s.io with port := [encode s.cfg i] } }

/-- A state in which a WRITE waits for its shift call. -/
def writeWaits (script : List Answer) : State :=
  { st sesI5 script with
    block :=
      { phase :=
          .busy { op := .write writeW4, step := 0, ret := 0, pending := some (.shift [0x03, 0x08, 0x00, 0x00] 4 9) }
        acc := 0 } }

/-- What WRITE's in-flight operation is there. -/
def flightW4 : InFlight :=
  { op := .write writeW4, step := 0, ret := 0, pending := some (.shift [0x03, 0x08, 0x00, 0x00] 4 9) }

/-- A state in which INIT I6 waits for its second priming call. -/
def flightI6 : InFlight := { op := .init initI6, step := 4, ret := 0, pending := some (.setLdac 0 2) }

def initWaits (script : List Answer) : State :=
  { st sesI6 script with block := { phase := .busy flightI6, acc := 0x04 } }

/-- A script of returns is what the transport answers next. -/
theorem returnsNext_script (ses : Session) (sts : List Byte) : (st ses (sts.map .returned)).returnsNext sts := by
  intro k x h
  simp [st, State.reset, Env.answer, h]

/-! ## Well-formedness refuses what does not fit the ports (R9 to R11) -/

theorem test_wf_variant : Instr.wf Config.default (.init { initI6 with variant := 16 }) = false := by decide
theorem test_wf_ctx : Instr.wf Config.default (.init { initI6 with ctx := 65536 }) = false := by decide
theorem test_wf_dest : Instr.wf Config.default (.format (fmt 65536 0)) = false := by decide
theorem test_wf_length : Instr.wf Config.default (.format (fmt 0 65536)) = false := by decide
theorem test_wf_cfg : ¬ Config.wf { Config.default with variantInW := 1 } := by decide
theorem test_wf_tags : ¬ Config.wf { Config.default with tags := { tag0 := .w16, tag1 := .w16, tag2 := .w12 } } := by
  decide

/-! ## Decoding refuses by name -/

theorem test_decode_short : decode Config.default (.request [0x03]) = .error .requestLength := by decide
theorem test_decode_stray :
    decode Config.default (.request [3, 0, 0, 0, 0, 0, 0, 0, 0, 0, 0, 0x04]) = .error .requestStrayBits := by decide
theorem test_decode_frameLength : decode Config.default (.frame .w16 [0, 0, 0]) = .error .frameLength := by decide
theorem test_decode_dontCare : decode Config.default (.frame .w16 [0x20, 0, 0, 0]) = .error .dontCareBits := by decide
theorem test_decode_pad14 : decode Config.default (.frame .w14 [0, 0, 0, 0x10]) = .error .padBits := by decide
theorem test_decode_pad12 : decode Config.default (.frame .w12 [0, 0, 0, 0x80]) = .error .padBits := by decide

/-! ## Words written out from the encodings -/

/-- R51 in the layout of log entry 2 (op 1:0, hv 2, variant 6:3, tp 7, shift 8, sel 9, ldac 10, clr 11, ctx 27:12): hv,
variant 1, tp, shift and ldac, context 2 (bit 13). -/
theorem test_word_init :
    decode Config.default (.request [0b10001100, 0b00100101, 0, 0, 0, 0, 0, 0, 0, 0, 0, 0]) =
      .ok (.init { hv := true, variant := 1, tp := true, capShift := true, capSel := false, capLdac := true,
                   capClr := false, ctx := 2 }) := by decide

/-- R51 in the layout of log entry 2 (rw 28, cmd 32:29, addr 36:33, data 52:37, mode 56:53): P1's first WRITE, its data
0x8000 in bit 52. -/
theorem test_word_write :
    decode Config.default (.request [0b00000101, 0, 0, 0b01100000, 0, 0, 0b00010000, 0, 0, 0, 0, 0]) =
      .ok (.write writeW4) := by decide

/-- R51 in the layout of log entry 2 (dv 57, dest_base 73:58, length 89:74): P3's first FORMAT. -/
theorem test_word_format :
    decode Config.default
        (.request [0b00000110, 0, 0, 0b01100000, 0b10100100, 0b01111001, 0b00010101, 0b00000110, 0b01000000, 0b00011100,
          0, 0]) =
      .ok (.format { hv := true, dv := true, destBase := 0x1001, length := 7,
                     desc := { rw := 0, cmd := 0x3, addr := 0x2, data := 0xABCD, mode := 0x0 } }) := by decide

/-- R52, R53: RSVD is q.op = 11, whatever the other fields hold. -/
theorem test_word_rsvd :
    decode Config.default (.request [0b11111111, 0xFF, 0, 0xFF, 0, 0, 0, 0, 0, 0, 0, 0]) = .ok .rsvd := by decide

/-- R55, the bits `000 1 0010 0011 0100010101100111 1000` (the FORMAT vectors' frame). -/
theorem test_word_f16 :
    decode Config.default (.frame .w16 [0b00010010, 0b00110100, 0b01010110, 0b01111000]) =
      .ok (.frameF16 1 0x2 0x3 0x4567 0x8) := by decide

/-- R56, V9: `000 0 0010 0001 00010010001101 00 0101`. -/
theorem test_word_f14 :
    decode Config.default (.frame .w14 [0b00000010, 0b00010001, 0b00100011, 0b01000101]) =
      .ok (.frameF14 0 0x2 0x1 0b00010010001101 0x5) := by decide

/-- R57, V10: `000 0 0010 0001 000100100011 0000 0101`. -/
theorem test_word_f12 :
    decode Config.default (.frame .w12 [0b00000010, 0b00010001, 0b00100011, 0b00000101]) =
      .ok (.frameF12 0 0x2 0x1 0b000100100011 0x5) := by decide

/-- The rows of spec/opcode_table.json by their op codes. -/
theorem test_table_requests :
    ((decodeTableWord 8 0).isSome && (decodeTableWord 8 1).isSome && (decodeTableWord 8 2).isSome &&
      decide (decodeTableWord 8 3 = some .rsvd)) = true := by decide

/-! ## The encoder (V5 to V7, V16 to V18) -/

/-- V5, V6, V7: all ones under each variant. -/
theorem test_encode_all_ones :
    let d : RawDesc := { rw := 1, cmd := 0xF, addr := 0xF, data := 0xFFFF, mode := 0xF }
    encodeDesc Config.default 0 d = some 0x1FFFFFFF#32 ∧ encodeDesc Config.default 1 d = some 0x1FFFFFCF#32 ∧
      encodeDesc Config.default 2 d = some 0x1FFFFF0F#32 ∧ encodeDesc Config.default 3 d = none := by decide

/-- V16, V18: fields wider than their ports. -/
theorem test_encode_masks :
    encodeDesc Config.default 0 { rw := 0, cmd := 0x13, addr := 0x1A, data := 0x1ABCD, mode := 0x1C } =
        some 0x03AABCDC#32 ∧
      encodeDesc Config.default 0 { rw := 3, cmd := 0x1, addr := 0x2, data := 0xABCD, mode := 0x9 } =
        some 0x112ABCD9#32 := by decide

/-! ## INIT -/

/-- I7: every priming call is made in order after a failure, the OR is 0x05, and the commit stands; no copy of the status
is left in B.acc (R26). -/
theorem test_init_I7 :
    (nextOf (exec (.init initI6) (st Session.reset [.returned 0x04, .returned 0x01, .returned 0x00]))).map
        (fun t => (t.session, t.block, t.io.responses, t.trace)) =
      some (sesI6, Block.reset, [0x05],
        [.call (.setClr 1 2), .ret 0x04, .call (.setLdac 0 2), .ret 0x01, .call (.setSelect 1 2), .ret 0x00]) := by
  decide

/-- I3: tp is checked before the variant, and the session is unchanged. -/
theorem test_init_I3 :
    (nextOf (exec (.init { initI6 with variant := 3, tp := false }) (st sesI5 []))).map
        (fun t => (t.session, t.io.responses, t.trace)) = some (sesI5, [0x02], []) := by decide

/-! ## WRITE -/

/-- W5: one shift call with context 9, its status passed on as it is. -/
theorem test_write_W5 :
    (nextOf (exec (.write writeW4) (st sesI5 [.returned 0x7F]))).map (fun t => (t.session, t.io.responses, t.trace)) =
      some (sesI5, [0x7F], [.call (.shift [0x03, 0x08, 0x00, 0x00] 4 9), .ret 0x7F]) := by decide

/-- W3: no shift function. -/
theorem test_write_W3 :
    (nextOf (exec (.write writeW4) (st sesI10 []))).map (fun t => (t.io.responses, t.trace)) = some ([0x02], []) := by
  decide

/-! ## FORMAT -/

/-- F10: two full repeats and two leading bytes. -/
theorem test_format_F10 :
    (nextOf (exec (.format (fmt 0x40 10)) (st sesI5 []))).map (fun t => (t.io.responses, t.dmem, t.trace)) =
      some ([0x00],
        [(0x40, 0x12), (0x41, 0x34), (0x42, 0x56), (0x43, 0x78), (0x44, 0x12), (0x45, 0x34), (0x46, 0x56), (0x47, 0x78),
          (0x48, 0x12), (0x49, 0x34)], []) := by decide

/-- F17: a range past the top of an 8-bit DMEM is refused. -/
theorem test_format_F17 :
    refusalOf (exec (.format (fmt 0xFE 3)) { st sesI5 [] with cfg := { Config.default with addrW := 8 } }) =
      some .rangePastTop := by decide

/-! ## RSVD and the frames -/

/-- X1, X2. -/
theorem test_rsvd_X2 :
    (nextOf (exec .rsvd (st sesI6 []))).map (fun t => (t.session, t.io.responses, t.trace)) =
      some (sesI6, [0x01], []) := by decide

/-- V8: `02 11 23 75`. -/
theorem test_frameF16_V8 :
    (nextOf (exec (.frameF16 0 0x2 0x1 0x1237 0x5) State.reset)).map (fun t => t.io.encoded) =
      some [[0x02, 0x11, 0x23, 0x75]] := by decide

/-- V22: `0F FF FF C0`. -/
theorem test_frameF14_V22 :
    (nextOf (exec (.frameF14 0 0xF 0xF 0b11111111111111 0x0) State.reset)).map (fun t => t.io.encoded) =
      some [[0x0F, 0xFF, 0xFF, 0xC0]] := by decide

/-- V23: `10 0F FF 0F`. -/
theorem test_frameF12_V23 :
    (nextOf (exec (.frameF12 1 0x0 0x0 0b111111111111 0xF) State.reset)).map (fun t => t.io.encoded) =
      some [[0x10, 0x0F, 0xFF, 0x0F]] := by decide

/-! ## The step, the outside events, the syntax -/

/-- Right after reset the step runs a table word that is placed at the input: RSVD answers Error. -/
theorem test_step_runs_table_word :
    (nextOf (step (State.reset.withFetchWord 8 3))).map (fun t => (t.io.responses, t.io.port)) = some ([0x01], []) := by
  decide

/-- R135: a reset after the first priming call of I6 (acceptance, commit and clearing come before it) leaves the call made, sends no response, and S is reset. -/
theorem test_reset_during_init :
    (nextOf (exec (.init initI6)
        { st Session.reset [.returned 0x00] with
          env := { State.reset.env with script := [.returned 0x00], events := [{ delay := 4, act := .reset }] } })).map
        (fun t => (t.session, t.io.responses, t.trace, t.earlier)) =
      some (Session.reset, [], [], [.call (.setClr 1 2), .ret 0x00]) := by decide

/-- R67 (P3's lines): the first FORMAT, a `dest=none` and the comment. -/
theorem test_assemble_format :
    assembleLine Config.default "FORMAT dest=0x1001 len=7 rw=W cmd=0x3 addr=0x2 data=0xABCD ; mode left out".toList =
        .ok (some { Request.blank with
          op := 0b10, hv := true, dv := true, destBase := 0x1001, length := 7,
          desc := { rw := 0, cmd := 0x3, addr := 0x2, data := 0xABCD, mode := 0x0 } }) ∧
      assembleLine Config.default "FORMAT dest=none len=0 rw=W".toList =
        .ok (some { Request.blank with op := 0b10, hv := true }) := by decide

/-- R67: `INIT v=2 tp=(shift,ldac in braces) ctx=5 hv=0`. -/
theorem test_assemble_init :
    assembleLine Config.default
        ("INIT v=2 tp=".toList ++ '\x7b' :: "shift,ldac".toList ++ '\x7d' :: " ctx=5 hv=0".toList) =
      .ok (some { Request.blank with
        op := 0b00, variant := 2, tp := true, capShift := true, capLdac := true, ctx := 5 }) := by decide

/-! ## Witnesses: the hypotheses of the statements can be met, at boundary values -/

/-- The largest operands that the default ports carry. -/
def initMax : InitArgs := { initI6 with variant := 15, ctx := 65535 }

theorem witness_DecodeOfEncodedInstruction :
    Instr.wf Config.default (.init initMax) = true ∧ Instr.wf Config.default (.format (fmt 65535 65535)) = true := by
  decide

theorem witness_EncodeOfDecodedFrame :
    ∃ i, decode Config.default (.frame .w12 [0x1F, 0xFF, 0xFF, 0x0F]) = .ok i := ⟨_, rfl⟩

/-- A record with every field set, of any operation. -/
def fullRequest (op : BitVec 2) : Request :=
  { op := op, hv := true, variant := 15, tp := true, capShift := true, capSel := true, capLdac := true, capClr := true,
    ctx := 65535, desc := { rw := 1, cmd := 15, addr := 15, data := 65535, mode := 15 }, dv := true, destBase := 65535,
    length := 65535 }

/-- For each operation, records that differ in every field it does not use. -/
theorem witness_UnusedRequestFieldsAreIgnored :
    State.reset.ready ∧ (∀ op, (fullRequest op).wf State.reset.cfg) ∧
      (fullRequest 0).agree { fullRequest 0 with desc := Request.blank.desc, dv := false, destBase := 0, length := 0 } ∧
      (fullRequest 1).agree { Request.blank with op := 1, hv := true, desc := (fullRequest 1).desc } ∧
      (fullRequest 2).agree { fullRequest 2 with variant := 0, tp := false, ctx := 0, capShift := false } ∧
      (fullRequest 3).agree { Request.blank with op := 3 } := by
  refine ⟨by decide, by decide, ?_, ?_, ?_, ?_⟩ <;> simp [Request.agree, fullRequest]

theorem witness_FrameIsReadOnlyWhenWellFormed :
    (∃ i, decodeFrame .w16 0x1FFFFFFF#32 = .ok i) ∧ (∃ i, decodeFrame .w14 0x1FFFFFCF#32 = .ok i) ∧
      ∃ i, decodeFrame .w12 0x1FFFFF0F#32 = .ok i := ⟨⟨_, rfl⟩, ⟨_, rfl⟩, ⟨_, rfl⟩⟩

theorem witness_VariantTable : Config.default.tags = TagMap.default ∧ 2 < 3 := by decide
theorem witness_EncoderComputesTheMaskedShiftFormula : 2 < 3 ∧ 2 ≤ 2 ∧ Config.default.tags = TagMap.default := by decide
theorem witness_SixteenBitDataIsLossless : Config.default.tags = TagMap.default := by decide
theorem witness_FourteenBitDataIsTruncated : Config.default.tags = TagMap.default := by decide
theorem witness_TwelveBitDataIsTruncated : Config.default.tags = TagMap.default := by decide
theorem witness_EncoderMasksEveryField : 2 ≤ 2 := by decide

/-- Descriptors that agree in rw, cmd and addr alone, and in each one field alone. -/
theorem witness_EachFieldHasItsOwnFrameBits :
    let d : RawDesc := { rw := 1, cmd := 15, addr := 15, data := 65535, mode := 15 }
    let e : RawDesc := { d with data := 0, mode := 0 }
    let g : RawDesc := { rw := 0, cmd := 0, addr := 0, data := 65535, mode := 0 }
    let h : RawDesc := { rw := 0, cmd := 0, addr := 0, data := 0, mode := 15 }
    let r : RawDesc := { rw := 1, cmd := 0, addr := 0, data := 0, mode := 0 }
    let k : RawDesc := { rw := 0, cmd := 15, addr := 0, data := 0, mode := 0 }
    let a : RawDesc := { rw := 0, cmd := 0, addr := 15, data := 0, mode := 0 }
    (d.rw = e.rw ∧ d.cmd = e.cmd ∧ d.addr = e.addr) ∧ d.data = g.data ∧ d.mode = h.mode ∧ d.rw = r.rw ∧ d.cmd = k.cmd ∧
      d.addr = a.addr := by decide

/-! ### INIT -/

theorem witness_InitChecksInOrder :
    State.reset.ready ∧ { initI6 with hv := false }.hv = false ∧
      ({ initI6 with tp := false }.hv = true ∧ { initI6 with tp := false }.tp = false) ∧
      ({ initI6 with variant := 3 }.tp = true ∧ 2 < { initI6 with variant := 3 }.variant) := by decide

theorem witness_InitCommitStandsWhateverTheTransportDoes :
    State.reset.ready ∧ initI6.hv = true ∧ initI6.tp = true ∧ { initI6 with variant := 2 }.variant ≤ 2 := by decide

/-- I7's answers. -/
def initAnswers : List Byte := [0x04, 0x01, 0x00]

theorem witness_InitPrimesInOrderAndReturnsTheOr :
    (st Session.reset (initAnswers.map .returned)).ready ∧ initI6.hv = true ∧ initI6.tp = true ∧ initI6.variant ≤ 2 ∧
      initAnswers.length = (primingCalls initI6).length ∧
      (st Session.reset (initAnswers.map .returned)).returnsNext initAnswers ∧
      (initI6.capClr = true ∧ { initI6 with capClr := false }.capClr = false) ∧
      { initI6 with capLdac := false }.capLdac = false ∧ { initI6 with capSel := false }.capSel = false :=
  ⟨by decide, rfl, rfl, by decide, by decide, returnsNext_script _ _, by decide, by decide, by decide⟩

/-- INIT with the shift function alone makes no priming call. -/
theorem witness_InitPrimesNothing :
    (primingCalls { initI6 with capSel := false, capLdac := false, capClr := false }).length = ([] : List Byte).length ∧
      State.reset.returnsNext [] := ⟨rfl, by intro k x h; simp at h⟩

theorem witness_InitStatusIsOkExactlyWhenEveryCallIs :
    (st Session.reset (initAnswers.map .returned)).ready ∧ initI6.hv = true ∧ initI6.tp = true ∧ initI6.variant ≤ 2 ∧
      initAnswers.length = (primingCalls initI6).length ∧
      (st Session.reset (initAnswers.map .returned)).returnsNext initAnswers :=
  ⟨by decide, rfl, rfl, by decide, by decide, returnsNext_script _ _⟩

theorem witness_InitLeavesTheLinesPrimed :
    (st Session.reset ([0, 0, 0].map .returned)).ready ∧ initI6.hv = true ∧ initI6.tp = true ∧ initI6.variant ≤ 2 ∧
      ([0, 0, 0] : List Byte).length = (primingCalls initI6).length ∧
      (st Session.reset (([0, 0, 0] : List Byte).map .returned)).returnsNext [0, 0, 0] ∧
      ∀ x ∈ ([0, 0, 0] : List Byte), x = 0x00#8 :=
  ⟨by decide, rfl, rfl, by decide, by decide, returnsNext_script _ _, by decide⟩

theorem witness_InitStaysBusyWhileACallIsOut :
    let s := st Session.reset [.returned 0x04, .pending]
    s.ready ∧ initI6.hv = true ∧ initI6.tp = true ∧ initI6.variant ≤ 2 ∧
      (primingCalls initI6)[[(0x04 : Byte)].length]? = some (.setLdac 0 2) ∧ s.returnsNext [0x04] ∧
      s.env.answer (s.env.polls + [(0x04 : Byte)].length) = .pending := by
  refine ⟨by decide, rfl, rfl, by decide, rfl, ?_, rfl⟩
  intro k x h
  match k with
  | 0 => simpa [st, State.reset, Env.answer] using h
  | k + 1 => simp at h

theorem witness_WaitingInitGoesOnWhenItsCallReturns :
    let s := initWaits [.returned 0x01, .returned 0x00]
    s.env.events = [] ∧ s.block.phase = .busy flightI6 ∧ flightI6.op = .init initI6 ∧ initI6.hv = true ∧
      initI6.tp = true ∧ initI6.variant ≤ 2 ∧ s.session.ctx = initI6.ctx ∧
      (primingCalls initI6)[1]? = some (.setLdac 0 2) ∧ flightI6.pending = some (.setLdac 0 2) ∧
      flightI6.step = 2 + 2 * 1 ∧ s.returnsNext [0x01, 0x00] ∧
      1 + 1 + [(0x00 : Byte)].length = (primingCalls initI6).length :=
  ⟨rfl, rfl, rfl, rfl, rfl, by decide, rfl, rfl, rfl, rfl, returnsNext_script sesI6 [0x01, 0x00], rfl⟩

/-! ### WRITE -/

/-- The four failing checks, the last one in a session that no INIT leaves. -/
theorem witness_WriteChecksInOrder :
    (st sesI5 []).ready ∧ { writeW4 with hv := false }.hv = false ∧ (st Session.reset []).session.tp = false ∧
      ((st sesI10 []).session.tp = true ∧ (st sesI10 []).session.capShift = false) ∧
      (st { sesI5 with variant := 3 } []).session.capShift = true ∧
      2 < (st { sesI5 with variant := 3 } []).session.variant.toNat := by decide

theorem witness_WriteShiftsItsFrameOnce :
    let s := st { sesI5 with variant := 2 } [.returned 0x7F]
    s.ready ∧ writeW4.hv = true ∧ s.session.tp = true ∧ s.session.capShift = true ∧ s.session.variant.toNat ≤ 2 ∧
      s.env.answer s.env.polls = .returned 0x7F := by decide

theorem witness_WriteStaysBusyWhileItsCallIsOut :
    let s := st sesI5 [.pending]
    s.ready ∧ writeW4.hv = true ∧ s.session.tp = true ∧ s.session.capShift = true ∧ s.session.variant.toNat ≤ 2 ∧
      s.env.answer s.env.polls = .pending := by decide

/-- A session where a check fails, and one where none does. -/
theorem witness_ReadFrameIsShiftedLikeAnyOther :
    (st sesI10 []).ready ∧ (st sesI10 []).session.capShift = false ∧
      let s := st sesI5 [.returned 0x00]
      s.ready ∧ s.session.tp = true ∧ s.session.capShift = true ∧ s.session.variant.toNat ≤ 2 := by decide

/-- A configured IDLE machine meets the invariant. -/
theorem inv_idle (script : List Answer) : (st sesI5 script).Inv :=
  { cfg := by show Config.default.wf; decide
    session := .inr (by show sesI5.configured ∧ 9 < 2 ^ 16; decide)
    dmem := by show dmemWf 16 []; decide
    block := trivial
    acc := fun h => absurd rfl h }

/-- A machine whose WRITE waits for its shift call meets the invariant. -/
theorem inv_writeWaits (script : List Answer) : (writeWaits script).Inv :=
  { cfg := by show Config.default.wf; decide
    session := .inr (by show sesI5.configured ∧ 9 < 2 ^ 16; decide)
    dmem := by show dmemWf 16 []; decide
    block :=
      ⟨by show sesI5.configured; decide, rfl, .shift 0x03080000#32, _, rfl, rfl,
        by show (writeActs Config.default sesI5 writeW4)[0]? = _; decide⟩
    acc := fun h => absurd rfl h }

theorem witness_WriteNeverMeetsAnUnknownVariant : (st sesI5 []).Inv ∧ (st sesI5 []).session.tp = true :=
  ⟨inv_idle [], rfl⟩

/-! ### FORMAT -/

/-- The failing checks, and a range of one byte too many. -/
theorem witness_FormatChecksInOrder :
    (st sesI10 []).ready ∧ { fmt 0 4 with hv := false }.hv = false ∧ { fmt 0 4 with dv := false }.dv = false ∧
      2 < (st Session.reset []).session.variant.toNat ∧
      ((st sesI10 []).session.variant.toNat ≤ 2 ∧
        2 ^ (st sesI10 []).cfg.addrW < (fmt 65535 2).destBase + (fmt 65535 2).length) := by decide

/-- The last byte of DMEM, in the variant 2, without a transport function. -/
theorem witness_FormatFillsItsRange :
    (st sesI10 []).ready ∧ (fmt 65535 1).hv = true ∧ (fmt 65535 1).dv = true ∧
      (st sesI10 []).session.variant.toNat ≤ 2 ∧
      (fmt 65535 1).destBase + (fmt 65535 1).length ≤ 2 ^ (st sesI10 []).cfg.addrW := by decide

theorem witness_FormatWritesRepeatsThenALeadingPart :
    (st sesI10 []).ready ∧ (fmt 65529 7).hv = true ∧ (fmt 65529 7).dv = true ∧
      (st sesI10 []).session.variant.toNat ≤ 2 ∧
      (fmt 65529 7).destBase + (fmt 65529 7).length ≤ 2 ^ (st sesI10 []).cfg.addrW := by decide

theorem witness_FormattedRepeatReadsBigEndian :
    (st sesI10 []).ready ∧ (fmt 65528 8).hv = true ∧ (fmt 65528 8).dv = true ∧
      (st sesI10 []).session.variant.toNat ≤ 2 ∧
      (fmt 65528 8).destBase + (fmt 65528 8).length ≤ 2 ^ (st sesI10 []).cfg.addrW ∧
      4 * 1 + 4 ≤ (fmt 65528 8).length := by decide

theorem witness_FormatIsIdempotent :
    (st sesI5 []).ready ∧ dmemWf (st sesI5 []).cfg.addrW (st sesI5 []).dmem ∧
      ∃ t, exec (.format (fmt 0x40 6)) (st sesI5 []) = .next t := ⟨by decide, by decide, _, rfl⟩

theorem witness_FormatIgnoresTheTransportBinding : (st sesI10 []).ready := by decide

/-- A state with one outside event to come. -/
def eventState (ses : Session) (e : EnvEvent) : State :=
  { st ses [] with env := { State.reset.env with events := [e] } }

/-- The reset lands after the last byte, before the response. -/
theorem witness_ResetCutsFormatShort :
    let s := eventState sesI5 { delay := 4 + 1, act := .reset }
    s.block.phase = .idle ∧ s.env.events = [{ delay := 4 + 1, act := .reset }] ∧ 4 ≤ (fmt 0x40 4).length ∧
      (fmt 0x40 4).hv = true ∧ (fmt 0x40 4).dv = true ∧ s.session.variant.toNat ≤ 2 ∧
      (fmt 0x40 4).destBase + (fmt 0x40 4).length ≤ 2 ^ s.cfg.addrW := by decide

/-- A reset right after acceptance, a FORMAT of the last byte of DMEM, and one that fails its check. -/
theorem witness_ResetAfterAcceptanceAbandonsTheRequest :
    let s := eventState sesI5 { delay := 1, act := .reset }
    s.block.phase = .idle ∧ s.env.events = [{ delay := 1, act := .reset }] ∧
      (fmt 65535 1).destBase + (fmt 65535 1).length ≤ 2 ^ s.cfg.addrW ∧ { fmt 65535 2 with hv := false }.hv = false := by
  decide

/-- The write lands after byte 3 has been written, at that byte. -/
theorem witness_RacingWriteIsKeptOrOverwritten :
    let s := eventState sesI5 { delay := 5, act := .write ((fmt 0x40 5).destBase + 3) 0xEE }
    s.block.phase = .idle ∧
      s.env.events = [{ delay := 5, act := .write ((fmt 0x40 5).destBase + 3) 0xEE }] ∧ 3 < (fmt 0x40 5).length ∧
      (fmt 0x40 5).hv = true ∧ (fmt 0x40 5).dv = true ∧ s.session.variant.toNat ≤ 2 ∧
      (fmt 0x40 5).destBase + (fmt 0x40 5).length ≤ 2 ^ s.cfg.addrW := by decide

theorem witness_RacingReadIsFree :
    let s := eventState sesI5 { delay := 6, act := .read ((fmt 0x40 5).destBase + 4) }
    s.block.phase = .idle ∧ s.env.events = [{ delay := 6, act := .read ((fmt 0x40 5).destBase + 4) }] ∧
      4 < (fmt 0x40 5).length ∧ 6 ≤ (fmt 0x40 5).length + 1 ∧ (fmt 0x40 5).hv = true ∧ (fmt 0x40 5).dv = true ∧
      s.session.variant.toNat ≤ 2 ∧ (fmt 0x40 5).destBase + (fmt 0x40 5).length ≤ 2 ^ s.cfg.addrW := by decide

/-! ### Requests and the step -/

theorem witness_RsvdRaisesError :
    State.reset.ready ∧ (fullRequest 3).wf State.reset.cfg ∧ (fullRequest 3).op = 0b11#2 := by decide

theorem witness_BusyBlockHasNoStepForARequest : (writeWaits []).block.phase = .busy flightW4 := by decide

theorem witness_StepRunsTheDecodedInstruction :
    let s := withItem (st sesI5 []) (.write writeW4)
    s.ready ∧ s.io.port = [encode s.cfg (.write writeW4)] ∧ decode s.cfg (encode s.cfg (.write writeW4)) = .ok (.write writeW4) := by
  decide

theorem witness_IdleBlockWaits : State.reset.ready ∧ State.reset.io.port = [] := by decide

theorem witness_CallThatDoesNotReturnKeepsTheBlockBusy :
    let s := writeWaits [.pending, .pending, .pending]
    s.env.events = [] ∧ s.block.phase = .busy flightW4 ∧
      flightW4.pending = some (.shift [0x03, 0x08, 0x00, 0x00] 4 9) ∧
      ∀ k, k < 3 → s.env.answer (s.env.polls + k) = .pending := by decide

theorem witness_WaitingWritePassesTheStatusOn :
    let s := writeWaits [.pending, .pending, .returned 0x7F]
    s.env.events = [] ∧ s.block.phase = .busy flightW4 ∧ flightW4.op = .write writeW4 ∧ flightW4.step = 0 ∧
      writeW4.hv = true ∧ s.session.tp = true ∧ s.session.capShift = true ∧
      encodeDesc s.cfg s.session.variant.toNat (descOperand writeW4.desc) = some 0x03080000#32 ∧
      flightW4.pending = some (.shift (frameBytes 0x03080000#32) 4 s.session.ctx) ∧
      (∀ k, k < 2 → s.env.answer (s.env.polls + k) = .pending) ∧
      s.env.answer (s.env.polls + 2) = .returned 0x7F := by decide

/-- A step that answers, and one that does not. -/
theorem witness_StepSendsAtMostOneResponse :
    (∃ t, step (withItem State.reset .rsvd) = .next t ∧ t.io.responses = [0x01]) ∧
      ∃ t, step State.reset = .next t ∧ t.io.responses = [] := ⟨⟨_, rfl, rfl⟩, ⟨_, rfl, rfl⟩⟩

theorem witness_LeftoverAccumulatorHasNoEffect :
    (st sesI5 [.returned 0x00]).ready ∧ ∃ t, exec (.write writeW4) (st sesI5 [.returned 0x00]) = .next t :=
  ⟨by decide, _, rfl⟩

/-! ### Rules of the whole machine -/

/-- From an IDLE state and from a BUSY one. -/
theorem witness_StepKeepsTheInvariant :
    ((st sesI5 []).Inv ∧ ∃ t, step (st sesI5 []) = .next t) ∧
      (writeWaits [.returned 0x00]).Inv ∧ ∃ t, step (writeWaits [.returned 0x00]) = .next t :=
  ⟨⟨inv_idle _, _, rfl⟩, inv_writeWaits _, _, rfl⟩

/-- A read by another agent and a late return, both due, and a write to come. -/
def otherEvents : List EnvEvent :=
  [{ delay := 0, act := .read 0x10 }, { delay := 0, act := .lateReturn 0x00 }, { delay := 9, act := .write 0x10 0xAA }]

/-- A configured IDLE machine with a request at its input and outside events to come. -/
def busyWorld (i : Instr) (events : List EnvEvent) : State :=
  { withItem (st sesI5 []) i with
    env :=
      { State.reset.env with
        script := [.returned 0x00, .returned 0x00], events := events, orphans := [.setLdac 0 9] } }

/-- The invariant speaks neither of the input nor of the environment. -/
theorem inv_busyWorld (i : Instr) (events : List EnvEvent) : (busyWorld i events).Inv :=
  { cfg := by show Config.default.wf; decide
    session := .inr (by show sesI5.configured ∧ 9 < 2 ^ 16; decide)
    dmem := by show dmemWf 16 []; decide
    block := trivial
    acc := fun h => absurd rfl h }

theorem witness_OnlyASuccessfulInitWritesTheSession :
    let s := busyWorld (.init { initI6 with capSel := false, capLdac := false }) otherEvents
    s.Inv ∧ s.noReset ∧ ∃ t, step s = .next t ∧ t.session ≠ s.session :=
  ⟨inv_busyWorld _ _, by decide, _, rfl, by decide⟩

theorem witness_OnlyFormatWritesDmem :
    let s := busyWorld (.format (fmt 0x40 4)) (otherEvents.take 2)
    s.Inv ∧ s.noReset ∧ s.noOtherWrite ∧ ∃ t, step s = .next t ∧ t.dmem ≠ s.dmem :=
  ⟨inv_busyWorld _ _, by decide, by decide, _, rfl, by decide⟩

/-- A BUSY block whose call returns, and an IDLE one that takes a WRITE. -/
theorem witness_OnlyInitAndWriteMakeCalls :
    ((writeWaits [.returned 0x00]).Inv ∧ (writeWaits [.returned 0x00]).noReset ∧
        ∃ t, step (writeWaits [.returned 0x00]) = .next t ∧ t.trace ≠ (writeWaits [.returned 0x00]).trace) ∧
      let s := busyWorld (.write writeW4) otherEvents
      s.Inv ∧ s.noReset ∧ ∃ t, step s = .next t ∧ t.trace ≠ s.trace :=
  ⟨⟨inv_writeWaits _, by decide, _, rfl, by decide⟩, inv_busyWorld _ _, by decide, _, rfl, by decide⟩

theorem witness_EveryCallIsOneTheBlockMayMake :
    let s := withItem (st sesI5 [.returned 0x00]) (.write writeW4)
    callsAllowed s.trace ∧ callsAllowed s.earlier ∧ ∃ t, step s = .next t :=
  ⟨by intro c h; simp [withItem, st, State.reset] at h, by intro c h; simp [withItem, st, State.reset] at h, _, rfl⟩

theorem witness_ConfiguredSessionStaysConfigured :
    let s := busyWorld (.init { initI6 with variant := 3 }) otherEvents
    s.noReset ∧ s.session.configured ∧ ∃ t, step s = .next t := ⟨by decide, by decide, _, rfl⟩

theorem witness_StepKeepsTheParameters : ∃ t, step (withItem State.reset .rsvd) = .next t := ⟨_, rfl⟩

/-- A reset of a BUSY block. -/
theorem witness_ResetEventResetsTheBlockAlone :
    let s := { writeWaits [] with env := { (writeWaits []).env with events := [{ delay := 0, act := .reset }] } }
    s.env.events = [{ delay := 0, act := .reset }] ∧ s.io.port = [] := by decide

/-- A machine with an abandoned call, whose return moves its line and the earlier record. -/
theorem witness_LateReturnHasNoEffectOnTheBlock :
    let s := busyWorld .rsvd []
    s.env.orphans = [.setLdac 0 9] ∧ (s.lateReturn 0x00).env.orphans = [] ∧ (s.lateReturn 0x00).lines.ldac = .low ∧
      (s.lateReturn 0x00).earlier = [.ret 0x00] := by decide

/-- A link that is ready: the lines that have no function are tied, and SYNC rests high. -/
theorem witness_WriteAsksForOneTransfer :
    let s := { st sesI5 [.returned 0x00] with lines := { sync := .high, ldac := .low, clr := .high } }
    s.ready ∧ writeW4.hv = true ∧ s.session.tp = true ∧ s.session.capShift = true ∧ s.session.variant.toNat ≤ 2 ∧
      s.linkReady := by decide

end Sys2Proof.Tests
end

section
/-! PROOFS. The parameters of the machine (R9 to R11): no operation that a step is made of writes them, so no step does
(O55). -/

namespace Sys2Proof.Machine

/-! ## What each operation leaves of the parameters -/

@[simp] theorem lateReturn_cfg (s : State) (status : Byte) : (s.lateReturn status).cfg = s.cfg := by
  unfold State.lateReturn
  split <;> rfl

@[simp] theorem outside_cfg (s : State) (act : EnvAct) : (s.outside act).cfg = s.cfg := by
  cases act with
  | reset => exact resetPulse_cfg s
  | read a => rfl
  | write a b => rfl
  | lateReturn status => exact lateReturn_cfg s status

@[simp] theorem deliver_cfg (s : State) : s.deliver.cfg = s.cfg :=
  deliver_keeps (fun u => u.cfg = s.cfg) s (fun _ _ hu => hu) (fun e _ u hu => (outside_cfg u e.act).trans hu) rfl

@[simp] theorem poll_cfg (s : State) (f : InFlight) (c : TCall) : (s.poll f c).cfg = s.cfg := by
  rcases poll_cases s f c with ⟨st, -, hreturned⟩ | ⟨-, hpending⟩
  · rw [hreturned]
  · rw [hpending]

@[simp] theorem callTransport_cfg (s : State) (f : InFlight) (r : CallReq) : (s.callTransport f r).cfg = s.cfg := by
  rw [callTransport_eq, poll_cfg]

@[simp] theorem perform_cfg (s : State) (f : InFlight) (a : Act) : (s.perform f a).cfg = s.cfg := by
  cases a with
  | callT r => exact callTransport_cfg s f r
  | commit session => exact proceed_cfg _ f
  | clearAcc => exact proceed_cfg _ f
  | orAcc => exact proceed_cfg _ f
  | store a b => exact proceed_cfg _ f
  | respond status => exact finish_cfg s status
  | respondRet => exact finish_cfg s f.ret
  | respondAcc => exact finish_cfg _ s.block.acc

/-! ## The step -/

/-- Settles O55: "the parameters are those of `s`" is kept by every operation of the step, so by the step. -/
theorem stepKeepsTheParameters : Obligations.StepKeepsTheParameters := by
  intro s t hstep
  refine step_keeps (fun u => u.cfg = s.cfg) ?deliver ?poll ?perform ?tick ?drop ?accept ?emit s t hstep rfl
  case deliver => exact fun u hu => (deliver_cfg u).trans hu
  case poll => exact fun u f c _ _ hu => (poll_cfg u f c).trans hu
  case perform => exact fun u f a _ hu => (perform_cfg u f a).trans hu
  case tick => exact fun u hu => (tick_cfg u).trans hu
  case drop => exact fun u hu => (dropItem_cfg u).trans hu
  case accept => exact fun u i hu => (accept_cfg u i).trans hu
  case emit => exact fun u w d hu => (emitFrame_cfg u w d).trans hu

end Sys2Proof.Machine
end

section
/-! PROOFS. The outside events: which are still to come after an operation, and what delivering those that are due can do
to the block. -/

namespace Sys2Proof.Machine

/-! ## The events to come -/

/-- Every outside event to come is one that `p` allows. -/
def State.toCome (p : EnvAct → Prop) (s : State) : Prop := ∀ e ∈ s.env.events, p e.act

/-- Ticking moves the moments of the events and not what they do. -/
theorem tickEvents_all (p : EnvAct → Prop) (es : List EnvEvent) (h : ∀ e ∈ es, p e.act) :
    ∀ e ∈ tickEvents es, p e.act := by
  cases es with
  | nil => exact h
  | cons e es =>
    obtain ⟨hhead, htail⟩ := List.forall_mem_cons.1 h
    exact List.forall_mem_cons.2 ⟨hhead, htail⟩

/-- Delivering leaves the events that are not due. -/
theorem deliver_events_suffix (s : State) : s.deliver.env.events <:+ s.env.events := by
  have main : ∀ (es : List EnvEvent) (u : State), (deliverEvents es u).env.events <:+ es := by
    intro es
    induction es with
    | nil => exact fun u => List.suffix_refl _
    | cons e es ih =>
      intro u
      simp only [deliverEvents]
      split
      · exact (ih _).trans (List.suffix_cons e es)
      · exact List.suffix_refl _
  exact main s.env.events s

theorem poll_events (s : State) (f : InFlight) (c : TCall) :
    (s.poll f c).env.events = tickEvents s.env.events := by
  rcases poll_cases s f c with ⟨st, -, hreturned⟩ | ⟨-, hpending⟩
  · rw [hreturned]
  · rw [hpending]

theorem perform_events (s : State) (f : InFlight) (a : Act) :
    (s.perform f a).env.events = tickEvents s.env.events := by
  cases a with
  | callT r => exact poll_events _ f _
  | _ => rfl

theorem toCome_deliver (p : EnvAct → Prop) (s : State) (h : s.toCome p) : s.deliver.toCome p :=
  fun e he => h e ((deliver_events_suffix s).subset he)

theorem toCome_perform (p : EnvAct → Prop) (s : State) (f : InFlight) (a : Act) (h : s.toCome p) :
    (s.perform f a).toCome p := by
  unfold State.toCome
  rw [perform_events]
  exact tickEvents_all p _ h

theorem toCome_poll (p : EnvAct → Prop) (s : State) (f : InFlight) (c : TCall) (h : s.toCome p) :
    (s.poll f c).toCome p := by
  unfold State.toCome
  rw [poll_events]
  exact tickEvents_all p _ h

/-! ## What the events that are due do -/

@[simp] theorem lateReturn_session (s : State) (status : Byte) : (s.lateReturn status).session = s.session := by
  unfold State.lateReturn
  split <;> rfl

@[simp] theorem lateReturn_block (s : State) (status : Byte) : (s.lateReturn status).block = s.block := by
  unfold State.lateReturn
  split <;> rfl

@[simp] theorem lateReturn_dmem (s : State) (status : Byte) : (s.lateReturn status).dmem = s.dmem := by
  unfold State.lateReturn
  split <;> rfl

@[simp] theorem lateReturn_io (s : State) (status : Byte) : (s.lateReturn status).io = s.io := by
  unfold State.lateReturn
  split <;> rfl

@[simp] theorem outside_io (s : State) (act : EnvAct) : (s.outside act).io = s.io := by
  cases act with
  | lateReturn status => exact lateReturn_io s status
  | _ => rfl

@[simp] theorem deliver_io (s : State) : s.deliver.io = s.io :=
  deliver_keeps (fun u => u.io = s.io) s (fun _ _ hu => hu) (fun e _ u hu => (outside_io u e.act).trans hu) rfl

/-- Only a reset moves the session and the block (R134). -/
theorem outside_session_block (s : State) (act : EnvAct) (h : act.isReset = false) :
    (s.outside act).session = s.session ∧ (s.outside act).block = s.block := by
  cases act with
  | reset => cases h
  | read a => exact ⟨rfl, rfl⟩
  | write a b => exact ⟨rfl, rfl⟩
  | lateReturn status => exact ⟨lateReturn_session s status, lateReturn_block s status⟩

theorem deliver_noReset (s : State) (h : s.noReset) : s.deliver.session = s.session ∧ s.deliver.block = s.block :=
  deliver_keeps (fun u => u.session = s.session ∧ u.block = s.block) s (fun _ _ hu => hu)
    (fun e he u ⟨hses, hblock⟩ =>
      have ⟨hses', hblock'⟩ := outside_session_block u e.act (h e he)
      ⟨hses'.trans hses, hblock'.trans hblock⟩)
    ⟨rfl, rfl⟩

/-- The due events leave the session and the block alone, or reset them both. -/
theorem deliver_session_block (s : State) :
    (s.deliver.session = s.session ∧ s.deliver.block = s.block) ∨
      (s.deliver.session = Session.reset ∧ s.deliver.block = Block.reset) := by
  refine deliver_keeps (fun u => (u.session = s.session ∧ u.block = s.block) ∨
    (u.session = Session.reset ∧ u.block = Block.reset)) s (fun _ _ hu => hu) (fun e _ u hu => ?_) (.inl ⟨rfl, rfl⟩)
  cases hact : e.act.isReset with
  | true =>
    cases he : e.act with
    | reset => exact .inr ⟨rfl, rfl⟩
    | _ => rw [he] at hact; cases hact
  | false =>
    obtain ⟨hses, hblock⟩ := outside_session_block u e.act hact
    rw [hses, hblock]
    exact hu

/-- The address of another agent's access exists (R33). -/
def EnvAct.inRange (addrW : Nat) : EnvAct → Prop
  | .reset => True
  | .read a => a < 2 ^ addrW
  | .write a _ => a < 2 ^ addrW
  | .lateReturn _ => True

/-- A step goes on only where every address among the events exists. -/
theorem inRange_of_badAddress (addrW : Nat) (es : List EnvEvent) (h : badAddress addrW es = none) :
    ∀ e ∈ es, e.act.inRange addrW := by
  induction es with
  | nil => simp
  | cons e es ih =>
    obtain ⟨delay, act⟩ := e
    cases act with
    | reset => exact List.forall_mem_cons.2 ⟨trivial, ih h⟩
    | lateReturn status => exact List.forall_mem_cons.2 ⟨trivial, ih h⟩
    | read a =>
      simp only [badAddress] at h
      split at h
      · next ha => exact List.forall_mem_cons.2 ⟨ha, ih h⟩
      · cases h
    | write a b =>
      simp only [badAddress] at h
      split at h
      · next ha => exact List.forall_mem_cons.2 ⟨ha, ih h⟩
      · cases h

/-- Other agents' writes at addresses that exist keep the canonical form. -/
theorem outside_dmemWf (s : State) (addrW : Nat) (act : EnvAct) (ha : act.inRange addrW) (h : dmemWf addrW s.dmem) :
    dmemWf addrW (s.outside act).dmem := by
  cases act with
  | reset => exact h
  | read a => exact h
  | write a b => exact dmemWrite_wf addrW s.dmem a b ha h
  | lateReturn status => exact (lateReturn_dmem s status).symm ▸ h

theorem deliver_dmemWf (s : State) (addrW : Nat) (ha : s.toCome (EnvAct.inRange addrW)) (h : dmemWf addrW s.dmem) :
    dmemWf addrW s.deliver.dmem :=
  deliver_keeps (fun u => dmemWf addrW u.dmem) s (fun _ _ hu => hu)
    (fun e he u hu => outside_dmemWf u addrW e.act (ha e he) hu) h

end Sys2Proof.Machine
end

section
/-! PROOFS. The effects of each operation's rule: which instructions have rules, and what a rule depends on. -/

namespace Sys2Proof.Machine

/-- A frame run by itself answers with the encoder's bytes and nothing else (R80). -/
theorem exec_frame (i : Instr) (h : isRequest i = false) : ∃ w d, ∀ s, exec i s = .next (s.emitFrame w d) := by
  cases i with
  | frameF16 rw cmd addr data mode => exact ⟨_, _, fun _ => rfl⟩
  | frameF14 rw cmd addr data mode => exact ⟨_, _, fun _ => rfl⟩
  | frameF12 rw cmd addr data mode => exact ⟨_, _, fun _ => rfl⟩
  | _ => cases h

/-- A frame has no rule, so an operation with an effect is a request. -/
theorem isRequest_of_mem (i : Instr) (s : State) (acts : List Act) (a : Act) (h : actsOf i s = .ok acts)
    (ha : a ∈ acts) : isRequest i = true := by
  cases i with
  | frameF16 rw cmd addr data mode => cases h; cases ha
  | frameF14 rw cmd addr data mode => cases h; cases ha
  | frameF12 rw cmd addr data mode => cases h; cases ha
  | _ => rfl

/-- A rule depends on the parameters and the session alone. -/
theorem actsOf_congr (i : Instr) (s u : State) (hcfg : u.cfg = s.cfg) (hses : u.session = s.session) :
    actsOf i u = actsOf i s := by
  cases i with
  | write q => simp only [actsOf, hcfg, hses]
  | format q => simp only [actsOf, hcfg, hses]
  | _ => rfl

/-- The fields of INIT pass its checks (R85). -/
def InitPasses (q : InitArgs) : Prop := q.hv = true ∧ q.tp = true ∧ q.variant ≤ 2

/-- INIT's effects: the status of the check that fails, or the commit, the priming calls and the response. -/
theorem initActs_cases (q : InitArgs) :
    (∃ st, initActs q = raise st) ∨
      (InitPasses q ∧
        initActs q = .commit (initSession q) :: .clearAcc :: (primeList (primingReqs q) ++ [.respondAcc])) := by
  by_cases h : InitPasses q
  · obtain ⟨hhv, htp, hvariant⟩ := h
    exact .inr ⟨⟨hhv, htp, hvariant⟩, initActs_valid q hhv htp hvariant⟩
  · refine .inl ?_
    unfold initActs
    split
    · exact ⟨_, rfl⟩
    · next hhv =>
      split
      · exact ⟨_, rfl⟩
      · next htp =>
        split
        · exact ⟨_, rfl⟩
        · next hvariant => exact absurd ⟨by simpa using hhv, by simpa using htp, Nat.not_lt.1 hvariant⟩ h

/-- WRITE's effects: the status of the check that fails, or one shift call and its status. -/
theorem writeActs_cases (c : Config) (ses : Session) (q : WriteArgs) :
    (∃ st, writeActs c ses q = raise st) ∨
      (ses.tp = true ∧ ∃ F, writeActs c ses q = [.callT (.shift F), .respondRet]) := by
  unfold writeActs
  split
  · exact .inl ⟨_, rfl⟩
  · split
    · exact .inl ⟨_, rfl⟩
    · next htp =>
      split
      · exact .inl ⟨_, rfl⟩
      · split
        · exact .inl ⟨_, rfl⟩
        · exact .inr ⟨by simpa using htp, _, rfl⟩

/-- FORMAT's effects where it is not refused: the status of the check that fails, or the byte writes of a range that lies
inside DMEM (R41) and OK. -/
theorem formatActs_cases (c : Config) (ses : Session) (q : FormatArgs) (acts : List Act)
    (h : formatActs c ses q = .ok acts) :
    (∃ st, acts = raise st) ∨
      (q.destBase + q.length ≤ 2 ^ c.addrW ∧
        ∃ F, acts = formatStores F q.destBase q.length ++ [.respond statusOk]) := by
  unfold formatActs at h
  split at h
  · cases h; exact .inl ⟨_, rfl⟩
  · split at h
    · cases h; exact .inl ⟨_, rfl⟩
    · split at h
      · cases h; exact .inl ⟨_, rfl⟩
      · split at h
        · cases h
        · next hrange => cases h; exact .inr ⟨Nat.not_lt.1 hrange, _, rfl⟩

theorem initSession_configured (q : InitArgs) (h : InitPasses q) : (initSession q).configured := by
  obtain ⟨-, -, hvariant⟩ := h
  refine ⟨rfl, ?_⟩
  simp only [initSession, BitVec.toNat_ofNat]
  omega

end Sys2Proof.Machine
end

section
/-! PROOFS. The machine's invariant (O48, O49, O56). An operation that runs is followed effect by effect: `Permitted` checks
what is left of its rule, `State.OnCourse` says that a state may make those effects, and each effect keeps a state on
course. -/

namespace Sys2Proof.Machine

/-! ## The rule of an operation, checked -/

/-- Is the instruction an INIT? B.acc is used by no other (R27). -/
def IsInit (i : Instr) : Prop := ∃ q, i = .init q

/-- What is left of the rule of `i` may be made: `configured` says that the session is known to be configured, `clear` that
B.acc is known to be 0x00. A call needs the first, a response the second, and the rule ends in a response. -/
def Permitted (c : Config) (i : Instr) : Prop → Prop → List Act → Prop
  | _, _, [] => False
  | _, clear, .commit ses :: as =>
    IsInit i ∧ (ses.configured ∧ ses.ctx < 2 ^ c.ctxW) ∧ Permitted c i True clear as
  | configured, _, .clearAcc :: as => Permitted c i configured True as
  | configured, _, .callT _ :: as => configured ∧ Permitted c i True (¬ IsInit i) as
  | configured, _, .orAcc :: as => IsInit i ∧ Permitted c i configured False as
  | configured, clear, .store a _ :: as => a < 2 ^ c.addrW ∧ Permitted c i configured clear as
  | _, clear, .respond _ :: as => clear ∧ as = []
  | _, clear, .respondRet :: as => clear ∧ as = []
  | _, _, .respondAcc :: as => as = []

/-- What follows a call may be made when the call has returned, whatever came before it. -/
theorem Permitted.after_call {c : Config} {i : Instr} {configured clear : Prop} {acts : List Act} {k : Nat}
    {r : CallReq} (h : Permitted c i configured clear acts) (hk : acts[k]? = some (.callT r)) :
    Permitted c i True (¬ IsInit i) (acts.drop (k + 1)) := by
  induction acts generalizing configured clear k with
  | nil => cases hk
  | cons a as ih =>
    cases k with
    | zero =>
      cases hk
      obtain ⟨-, htail⟩ := h
      exact htail
    | succ k =>
      rw [List.getElem?_cons_succ] at hk
      rw [List.drop_succ_cons]
      cases a with
      | commit ses => obtain ⟨-, -, htail⟩ := h; exact ih htail hk
      | clearAcc => exact ih h hk
      | callT r' => obtain ⟨-, htail⟩ := h; exact ih htail hk
      | orAcc => obtain ⟨-, htail⟩ := h; exact ih htail hk
      | store a b => obtain ⟨-, htail⟩ := h; exact ih htail hk
      | respond st => obtain ⟨-, rfl⟩ := h; cases hk
      | respondRet => obtain ⟨-, rfl⟩ := h; cases hk
      | respondAcc => cases (show as = [] from h); cases hk

theorem permitted_raise (c : Config) (i : Instr) (configured : Prop) (st : Byte) :
    Permitted c i configured True (raise st) := ⟨trivial, rfl⟩

/-- INIT's priming calls and its response, from a configured session. -/
theorem permitted_primes (c : Config) (q : InitArgs) (clear : Prop) (rs : List CallReq) :
    Permitted c (.init q) True clear (primeList rs ++ [.respondAcc]) := by
  induction rs generalizing clear with
  | nil => exact rfl
  | cons r rs ih => exact ⟨trivial, ⟨q, rfl⟩, ih False⟩

/-- FORMAT's byte writes in a range inside DMEM. -/
theorem permitted_stores (c : Config) (i : Instr) (configured : Prop) (F : Frame) (dest length : Nat)
    (h : dest + length ≤ 2 ^ c.addrW) :
    Permitted c i configured True (formatStores F dest length ++ [.respond statusOk]) := by
  have main : ∀ js : List Nat, (∀ j ∈ js, j < length) →
      Permitted c i configured True
        ((js.map fun j => Act.store (dest + j) (frameByte F (j % 4))) ++ [.respond statusOk]) := by
    intro js
    induction js with
    | nil => exact fun _ => permitted_raise c i configured statusOk
    | cons j js ih =>
      intro hjs
      obtain ⟨hj, hrest⟩ := List.forall_mem_cons.1 hjs
      exact ⟨by omega, ih hrest⟩
  exact main (List.range length) fun j hj => List.mem_range.1 hj

/-- The whole rule of every request may be made from its acceptance on, when B.acc is 0x00. -/
theorem actsOf_permitted (i : Instr) (s : State) (acts : List Act) (h : actsOf i s = .ok acts)
    (hreq : isRequest i = true) (hwf : i.wf s.cfg = true) (hses : s.session.legal s.cfg) :
    Permitted s.cfg i s.session.configured True acts := by
  cases i with
  | init q =>
    cases h
    obtain ⟨-, hctx⟩ : q.wf s.cfg := of_decide_eq_true hwf
    rcases initActs_cases q with ⟨st, hraise⟩ | ⟨hpasses, hacts⟩
    · rw [hraise]; exact permitted_raise _ _ _ _
    · rw [hacts]
      exact ⟨⟨q, rfl⟩, ⟨initSession_configured q hpasses, hctx⟩, permitted_primes _ q True _⟩
  | write q =>
    cases h
    rcases writeActs_cases s.cfg s.session q with ⟨st, hraise⟩ | ⟨htp, F, hacts⟩
    · rw [hraise]; exact permitted_raise _ _ _ _
    · have hconfigured : s.session.configured := by
        rcases hses with hreset | ⟨hconfigured, -⟩
        · rw [hreset] at htp; cases htp
        · exact hconfigured
      rw [hacts]
      have hnot : ¬ IsInit (.write q) := by rintro ⟨q', hq'⟩; cases hq'
      exact ⟨hconfigured, ⟨hnot, rfl⟩⟩
  | format q =>
    rcases formatActs_cases s.cfg s.session q acts h with ⟨st, rfl⟩ | ⟨hrange, F, rfl⟩
    · exact permitted_raise _ _ _ _
    · exact permitted_stores _ _ _ F _ _ hrange
  | rsvd => cases h; exact permitted_raise _ _ _ _
  | _ => cases hreq

/-! ## A state on course -/

/-- The clauses of the invariant that do not speak of the block, and the addresses of the outside events to come. -/
structure State.Sound (s : State) : Prop where
  cfg : s.cfg.wf
  session : s.session.legal s.cfg
  dmem : dmemWf s.cfg.addrW s.dmem
  events : s.toCome (EnvAct.inRange s.cfg.addrW)

/-- The operation `f` is at the position of its rule where `rest` is left, and may make it. -/
def State.MayMake (s : State) (f : InFlight) (rest : List Act) : Prop :=
  f.op.wf s.cfg = true ∧ (∃ acts, actsOf f.op s = .ok acts ∧ acts.drop f.step = rest) ∧
    ∃ configured clear : Prop, (configured → s.session.configured) ∧ (clear → s.block.acc = 0x00) ∧
      Permitted s.cfg f.op configured clear rest

/-- The invariant in the midst of a step: a running operation may make what is left of its rule, and a block where none
runs is IDLE or waits for its call. -/
structure State.OnCourse (s : State) (rest : List Act) : Prop where
  sound : s.Sound
  acc : s.accInUse
  halted : s.block.running = none → s.waiting
  running : ∀ f, s.block.running = some f → s.MayMake f rest

/-- Between two steps no operation runs. -/
theorem running_eq_none_of_waiting (s : State) (h : s.waiting) : s.block.running = none := by
  cases hrun : s.block.running with
  | none => rfl
  | some f =>
    obtain ⟨hphase, hpending⟩ := (running_eq_some _ _).1 hrun
    simp only [State.waiting, hphase] at h
    obtain ⟨-, -, r, acts, hcall, -, -⟩ := h
    rw [hpending] at hcall
    cases hcall

theorem waiting_of_idle (s : State) (h : s.block.phase = .idle) : s.waiting := by
  simp only [State.waiting, h]

theorem acc_eq_zero_of_idle (s : State) (hacc : s.accInUse) (h : s.block.phase = .idle) : s.block.acc = 0x00 := by
  by_contra hne
  obtain ⟨f, q, hbusy, -⟩ := hacc hne
  rw [h] at hbusy
  cases hbusy

/-- An operation that is BUSY while B.acc is not 0x00 is an INIT. -/
theorem isInit_of_acc {s : State} {f : InFlight} (hacc : s.accInUse) (hbusy : s.block.phase = .busy f)
    (hne : s.block.acc ≠ 0x00) : IsInit f.op := by
  obtain ⟨g, q, hg, hop⟩ := hacc hne
  rw [hbusy] at hg
  cases hg
  exact ⟨q, hop⟩

/-- A block that is IDLE or waits is on course whatever is left. -/
theorem onCourse_of_waiting {s : State} (rest : List Act) (hs : s.Sound) (hacc : s.accInUse) (hwaiting : s.waiting) :
    s.OnCourse rest where
  sound := hs
  acc := hacc
  halted := fun _ => hwaiting
  running := fun f hf => by
    rw [running_eq_none_of_waiting s hwaiting] at hf
    cases hf

/-- A running operation is on course when it may make what is left. -/
theorem onCourse_of_running {s : State} {f : InFlight} {rest : List Act} (hs : s.Sound)
    (hrun : s.block.running = some f) (hacc : s.block.acc ≠ 0x00 → IsInit f.op) (hmake : s.MayMake f rest) :
    s.OnCourse rest where
  sound := hs
  acc := fun hne => by
    obtain ⟨hphase, -⟩ := (running_eq_some _ _).1 hrun
    obtain ⟨q, hq⟩ := hacc hne
    exact ⟨f, q, hphase, hq⟩
  halted := fun hnone => by
    rw [hrun] at hnone
    cases hnone
  running := fun g hg => by
    rw [hrun] at hg
    cases hg
    exact hmake

theorem State.OnCourse.inv_of_halted {s : State} {rest : List Act} (h : s.OnCourse rest)
    (hrun : s.block.running = none) : s.Inv :=
  ⟨h.sound.cfg, h.sound.session, h.sound.dmem, h.halted hrun, h.acc⟩

/-- Where nothing is left, the operation is over: its rule ends in a response. -/
theorem State.OnCourse.inv {s : State} (h : s.OnCourse []) : s.Inv := by
  refine h.inv_of_halted ?_
  cases hrun : s.block.running with
  | none => rfl
  | some f =>
    obtain ⟨-, -, _, _, -, -, hnone⟩ := h.running f hrun
    exact hnone.elim

/-! ## Each operation of a step keeps a state on course -/

theorem State.Sound.deliver {s : State} (h : s.Sound) : s.deliver.Sound where
  cfg := (deliver_cfg s).symm ▸ h.cfg
  session := by
    rw [deliver_cfg]
    rcases deliver_session_block s with ⟨hses, -⟩ | ⟨hses, -⟩
    · rw [hses]; exact h.session
    · exact .inl hses
  dmem := (deliver_cfg s).symm ▸ deliver_dmemWf s _ h.events h.dmem
  events := (deliver_cfg s).symm ▸ toCome_deliver _ s h.events

/-- What a state may make depends on its parameters, its session and B.acc. -/
theorem State.MayMake.congr {s u : State} {f : InFlight} {rest : List Act} (h : s.MayMake f rest)
    (hcfg : u.cfg = s.cfg) (hses : u.session = s.session) (hacc : u.block.acc = s.block.acc) : u.MayMake f rest := by
  unfold State.MayMake
  rw [hcfg, hses, hacc, actsOf_congr f.op s u hcfg hses]
  exact h

/-- Whether a state waits for its call depends on its parameters, its session and its block. -/
theorem waiting_congr {s u : State} (h : s.waiting) (hcfg : u.cfg = s.cfg) (hses : u.session = s.session)
    (hblock : u.block = s.block) : u.waiting := by
  cases hphase : s.block.phase with
  | idle => exact waiting_of_idle u (hblock ▸ hphase)
  | busy f =>
    simp only [State.waiting, hblock, hphase] at h ⊢
    rw [hcfg, hses, actsOf_congr f.op s u hcfg hses]
    exact h

/-- The invariant speaks of the parameters, the session, the block and DMEM. -/
theorem State.Inv.congr {s u : State} (h : s.Inv) (hcfg : u.cfg = s.cfg) (hses : u.session = s.session)
    (hblock : u.block = s.block) (hdmem : u.dmem = s.dmem) : u.Inv where
  cfg := hcfg ▸ h.cfg
  session := hcfg ▸ hses ▸ h.session
  dmem := hcfg ▸ hdmem ▸ h.dmem
  block := waiting_congr h.block hcfg hses hblock
  acc := by
    unfold State.accInUse
    rw [hblock]
    exact h.acc

/-- The events that are due leave the operation as it is, or a reset abandons it. -/
theorem State.OnCourse.deliver {s : State} {rest : List Act} (h : s.OnCourse rest) : s.deliver.OnCourse rest := by
  rcases deliver_session_block s with ⟨hses, hblock⟩ | ⟨-, hblock⟩
  · refine ⟨h.sound.deliver, ?_, fun hrun => ?_, fun f hf => ?_⟩
    · unfold State.accInUse
      rw [hblock]
      exact h.acc
    · rw [hblock] at hrun
      exact waiting_congr (h.halted hrun) (deliver_cfg s) hses hblock
    · rw [hblock] at hf
      exact (h.running f hf).congr (deliver_cfg s) hses (congrArg Block.acc hblock)
  · refine onCourse_of_waiting rest h.sound.deliver (fun hne => ?_) (waiting_of_idle _ (congrArg Block.phase hblock))
    rw [hblock] at hne
    exact absurd rfl hne

theorem State.Sound.tick {s : State} (h : s.Sound) : s.tick.Sound :=
  ⟨h.cfg, h.session, h.dmem, tickEvents_all _ _ h.events⟩

/-- An operation that goes on to its next position is on course when it may make what is left from there. -/
theorem onCourse_proceed (s : State) (f : InFlight) (rest : List Act) (hs : s.Sound)
    (hacc : s.block.acc ≠ 0x00 → IsInit f.op)
    (hmake : s.MayMake { f with step := f.step + 1, pending := none } rest) : (s.proceed f).OnCourse rest :=
  onCourse_of_running (State.Sound.tick ⟨hs.cfg, hs.session, hs.dmem, hs.events⟩) rfl hacc hmake

/-- An operation that responds with B.acc at 0x00 is over, and the block is on course whatever is left. -/
theorem onCourse_finish (s : State) (st : Byte) (rest : List Act) (hs : s.Sound) (hacc : s.block.acc = 0x00) :
    (s.finish st).OnCourse rest :=
  onCourse_of_waiting rest (State.Sound.tick ⟨hs.cfg, hs.session, hs.dmem, hs.events⟩) (fun hne => absurd hacc hne)
    (waiting_of_idle _ rfl)

/-- Looking at the call at the position of the operation: it has returned and the operation goes on, or the block waits. -/
theorem onCourse_poll (s : State) (f : InFlight) (r : CallReq) (acts : List Act) (hs : s.Sound)
    (hacc : s.block.acc ≠ 0x00 → IsInit f.op) (hconfigured : s.session.configured) (hwf : f.op.wf s.cfg = true)
    (hacts : actsOf f.op s = .ok acts) (hcall : acts[f.step]? = some (.callT r))
    (hleft : Permitted s.cfg f.op True (¬ IsInit f.op) (acts.drop (f.step + 1))) :
    (s.poll f (r.withCtx s.session.ctx)).OnCourse (acts.drop (f.step + 1)) := by
  have hevents := toCome_poll _ s f (r.withCtx s.session.ctx) hs.events
  rcases poll_cases s f (r.withCtx s.session.ctx) with ⟨st, -, hreturned⟩ | ⟨-, hpending⟩
  · have hclear : ¬ IsInit f.op → s.block.acc = 0x00 := fun hnot => by
      by_contra hne
      exact hnot (hacc hne)
    rw [hreturned] at hevents ⊢
    exact onCourse_of_running ⟨hs.cfg, hs.session, hs.dmem, hevents⟩ rfl hacc
      ⟨hwf, ⟨acts, (actsOf_congr _ _ _ rfl rfl).trans hacts, rfl⟩, _, _, fun _ => hconfigured, hclear, hleft⟩
  · rw [hpending] at hevents ⊢
    refine onCourse_of_waiting _ ⟨hs.cfg, hs.session, hs.dmem, hevents⟩ (fun hne => ?_)
      ⟨hconfigured, hwf, r, acts, rfl, (actsOf_congr _ _ _ rfl rfl).trans hacts, hcall⟩
    obtain ⟨q, hq⟩ := hacc hne
    exact ⟨_, q, rfl, hq⟩

/-- One effect of a running operation. -/
theorem State.OnCourse.perform {s : State} {f : InFlight} {a : Act} {as : List Act} (h : s.OnCourse (a :: as))
    (hf : s.block.running = some f) : (s.perform f a).OnCourse as := by
  obtain ⟨hphase, -⟩ := (running_eq_some _ _).1 hf
  obtain ⟨hwf, ⟨acts, hacts, hdrop⟩, configured, clear, hconfigured, hclear, hperm⟩ := h.running f hf
  have hs := h.sound
  have hacc : s.block.acc ≠ 0x00 → IsInit f.op := isInit_of_acc h.acc hphase
  have hnext : acts.drop (f.step + 1) = as := by
    rw [← List.drop_drop, hdrop]
    rfl
  cases a with
  | commit ses =>
    obtain ⟨⟨q, hq⟩, ⟨hses, hctx⟩, htail⟩ := hperm
    refine onCourse_proceed { s with session := ses } f as ⟨hs.cfg, .inr ⟨hses, hctx⟩, hs.dmem, hs.events⟩ hacc ?_
    refine ⟨hwf, ⟨acts, ?_, hnext⟩, True, clear, fun _ => hses, hclear, htail⟩
    rw [← hacts, hq]
    rfl
  | clearAcc =>
    exact onCourse_proceed { s with block := { s.block with acc := statusOk } } f as
      ⟨hs.cfg, hs.session, hs.dmem, hs.events⟩ (fun hne => absurd rfl hne)
      ⟨hwf, ⟨acts, (actsOf_congr _ _ _ rfl rfl).trans hacts, hnext⟩, configured, True, hconfigured, fun _ => rfl, hperm⟩
  | callT r =>
    obtain ⟨hconf, htail⟩ := hperm
    have hcall : acts[f.step]? = some (.callT r) := by
      rw [← List.head?_drop, hdrop]
      rfl
    subst hnext
    exact onCourse_poll { s with trace := _ } f r acts ⟨hs.cfg, hs.session, hs.dmem, hs.events⟩ hacc
      (hconfigured hconf) hwf ((actsOf_congr _ _ _ rfl rfl).trans hacts) hcall htail
  | orAcc =>
    obtain ⟨hinit, htail⟩ := hperm
    exact onCourse_proceed { s with block := { s.block with acc := orStatus s.block.acc f.ret } } f as
      ⟨hs.cfg, hs.session, hs.dmem, hs.events⟩ (fun _ => hinit)
      ⟨hwf, ⟨acts, (actsOf_congr _ _ _ rfl rfl).trans hacts, hnext⟩, configured, False, hconfigured, False.elim, htail⟩
  | store addr b =>
    obtain ⟨haddr, htail⟩ := hperm
    exact onCourse_proceed { s with dmem := dmemWrite s.dmem addr b } f as
      ⟨hs.cfg, hs.session, dmemWrite_wf _ _ addr b haddr hs.dmem, hs.events⟩ hacc
      ⟨hwf, ⟨acts, (actsOf_congr _ _ _ rfl rfl).trans hacts, hnext⟩, configured, clear, hconfigured, hclear, htail⟩
  | respond st =>
    obtain ⟨hzero, -⟩ := hperm
    exact onCourse_finish s st as hs (hclear hzero)
  | respondRet =>
    obtain ⟨hzero, -⟩ := hperm
    exact onCourse_finish s f.ret as hs (hclear hzero)
  | respondAcc =>
    exact onCourse_finish { s with block := { s.block with acc := statusOk } } s.block.acc as
      ⟨hs.cfg, hs.session, hs.dmem, hs.events⟩ rfl

/-- What is left of an operation's rule, run to where it ends, waits or is abandoned. -/
theorem State.OnCourse.runActs_inv {s : State} {rest : List Act} (h : s.OnCourse rest) : (runActs rest s).Inv := by
  induction rest generalizing s with
  | nil => exact h.inv
  | cons a as ih =>
    simp only [runActs]
    split
    · next f hf => exact ih (h.deliver.perform hf)
    · next hrun => exact h.deliver.inv_of_halted hrun

/-! ## The step -/

/-- An accepted request is on course with the whole of its rule. -/
theorem onCourse_accept (s : State) (i : Instr) (acts : List Act) (hs : s.Sound) (hacc : s.accInUse)
    (hidle : s.block.phase = .idle) (hreq : isRequest i = true) (hwf : i.wf s.cfg = true)
    (hacts : actsOf i s = .ok acts) : (s.accept i).OnCourse acts := by
  have hzero : s.block.acc = 0x00 := acc_eq_zero_of_idle s hacc hidle
  exact onCourse_of_running (State.Sound.tick ⟨hs.cfg, hs.session, hs.dmem, hs.events⟩) rfl (absurd hzero)
    ⟨hwf, ⟨acts, (actsOf_congr _ _ _ rfl rfl).trans hacts, rfl⟩, s.session.configured, True, id, fun _ => hzero,
      actsOf_permitted i s acts hacts hreq hwf hs.session⟩

/-- A well-formed instruction run by an IDLE block. -/
theorem exec_keeps_inv (i : Instr) (s t : State) (hinv : s.Inv) (hevents : s.toCome (EnvAct.inRange s.cfg.addrW))
    (hwf : i.wf s.cfg = true) (h : exec i s = .next t) : t.Inv := by
  cases hreq : isRequest i with
  | true =>
    rw [exec_request i s hreq] at h
    obtain ⟨hidle, acts, hacts, rfl⟩ := issue_next s t i _ h
    exact (onCourse_accept s i acts ⟨hinv.cfg, hinv.session, hinv.dmem, hevents⟩ hinv.acc hidle hreq hwf
      hacts).runActs_inv
  | false =>
    obtain ⟨w, d, hframe⟩ := exec_frame i hreq
    rw [hframe s] at h
    cases h
    exact hinv.congr rfl rfl rfl rfl

/-- A BUSY block that looks at its call, and goes on when the call has returned. -/
theorem resume_keeps_inv (s t : State) (f : InFlight) (hinv : s.Inv) (hevents : s.toCome (EnvAct.inRange s.cfg.addrW))
    (hbusy : s.block.phase = .busy f) (h : s.resume f = .next t) : t.Inv := by
  have hwaiting := hinv.block
  simp only [State.waiting, hbusy] at hwaiting
  obtain ⟨hconfigured, hwf, r, acts, hpending, hacts, hcall⟩ := hwaiting
  have hleft : Permitted s.cfg f.op True (¬ IsInit f.op) (acts.drop (f.step + 1)) :=
    (actsOf_permitted f.op s acts hacts (isRequest_of_mem _ _ _ _ hacts (List.mem_of_getElem? hcall)) hwf
      hinv.session).after_call hcall
  have hpoll := onCourse_poll s f r acts ⟨hinv.cfg, hinv.session, hinv.dmem, hevents⟩ (isInit_of_acc hinv.acc hbusy)
    hconfigured hwf hacts hcall hleft
  obtain ⟨u, rfl | ⟨c, hc, rfl⟩, hcase⟩ := resume_next s t f h
  · rcases hcase with ⟨-, rfl⟩ | ⟨g, -, hrun, -⟩
    · exact hinv
    · rw [running_eq_none_of_waiting u hinv.block] at hrun
      cases hrun
  · rw [hpending] at hc
    cases hc
    rcases hcase with ⟨hrun, rfl⟩ | ⟨g, whole, hrun, hwhole, rfl⟩
    · exact hpoll.inv_of_halted hrun
    · obtain ⟨-, ⟨acts', hacts', hdrop⟩, -⟩ := hpoll.running g hrun
      rw [hwhole] at hacts'
      cases hacts'
      rw [hdrop]
      exact hpoll.runActs_inv

/-- Settles O48: the due events keep the invariant, and so does what the block then does: it goes on with its operation,
it waits, or it runs an item, whose fields fit the ports because it decodes. -/
theorem stepKeepsTheInvariant : Obligations.StepKeepsTheInvariant := by
  intro s t hinv hstep
  obtain ⟨hbad, hcase⟩ := step_next s t hstep
  have hevents : s.toCome (EnvAct.inRange s.cfg.addrW) := inRange_of_badAddress _ _ hbad
  have hcourse : s.deliver.OnCourse [] :=
    (onCourse_of_waiting [] ⟨hinv.cfg, hinv.session, hinv.dmem, hevents⟩ hinv.acc hinv.block).deliver
  have hdelivered : s.deliver.Inv := hcourse.inv
  rcases hcase with ⟨f, hbusy, hresume⟩ | ⟨-, -, rfl⟩ | ⟨item, i, -, -, hdecode, hexec⟩
  · exact resume_keeps_inv _ t f hdelivered hcourse.sound.events hbusy hresume
  · exact hdelivered.congr rfl rfl rfl rfl
  · exact exec_keeps_inv i s.deliver.dropItem t (hdelivered.congr rfl rfl rfl rfl) hcourse.sound.events
      (decode_wf _ item i hdecode) hexec

/-! ## The reset state -/

/-- Settles O49: the session is at its reset values, DMEM lists nothing, and the block is IDLE with B.acc at 0x00. -/
theorem resetStateMeetsTheInvariant : Obligations.ResetStateMeetsTheInvariant where
  cfg := by decide
  session := .inl rfl
  dmem := dmemWf_nil _
  block := waiting_of_idle _ rfl
  acc := fun hne => absurd rfl hne

/-- Settles O56: the reset state holds the values that R29 to R31 give. -/
theorem resetLeavesTheStatedValues : Obligations.ResetLeavesTheStatedValues := ⟨rfl, rfl, rfl⟩

end Sys2Proof.Machine
end

section
/-! PROOFS. The session (O50, O54): running effects leaves it as it was or gives it what a commit among them writes, and
the only commit stands first in the rule of an INIT that passes its checks. -/

namespace Sys2Proof.Machine

/-! ## The commits of a rule -/

/-- No rule commits after its first effect. -/
theorem commit_notMem_tail (i : Instr) (s : State) (acts : List Act) (ses : Session) (h : actsOf i s = .ok acts) :
    .commit ses ∉ acts.tail := by
  cases i with
  | init q =>
    cases h
    rcases initActs_cases q with ⟨st, hraise⟩ | ⟨-, hacts⟩
    · simp [hraise, raise]
    · simp [hacts, primeList]
  | write q =>
    cases h
    rcases writeActs_cases s.cfg s.session q with ⟨st, hraise⟩ | ⟨-, F, hacts⟩
    · simp [hraise, raise]
    · simp [hacts]
  | format q =>
    rcases formatActs_cases s.cfg s.session q acts h with ⟨st, rfl⟩ | ⟨-, F, rfl⟩
    · simp [raise]
    · exact fun hmem => by simpa [formatStores] using List.mem_of_mem_tail hmem
  | _ => cases h; simp [rsvdActs, raise]

/-- A commit stands in the rule of an INIT that passes its checks, and writes all seven fields of it (R86). -/
theorem eq_init_of_commit_mem (i : Instr) (s : State) (acts : List Act) (ses : Session) (h : actsOf i s = .ok acts)
    (hmem : .commit ses ∈ acts) : ∃ q, i = .init q ∧ InitPasses q ∧ ses = initSession q := by
  cases i with
  | init q =>
    cases h
    rcases initActs_cases q with ⟨st, hraise⟩ | ⟨hpasses, hacts⟩
    · simp [hraise, raise] at hmem
    · refine ⟨q, rfl, hpasses, ?_⟩
      simpa [hacts, primeList] using hmem
  | write q =>
    cases h
    rcases writeActs_cases s.cfg s.session q with ⟨st, hraise⟩ | ⟨-, F, hacts⟩
    · simp [hraise, raise] at hmem
    · simp [hacts] at hmem
  | format q =>
    rcases formatActs_cases s.cfg s.session q acts h with ⟨st, rfl⟩ | ⟨-, F, rfl⟩
    · simp [raise] at hmem
    · simp [formatStores] at hmem
  | _ => cases h; simp [rsvdActs, raise] at hmem

/-! ## What running effects does to the session -/

@[simp] theorem poll_session (s : State) (f : InFlight) (c : TCall) : (s.poll f c).session = s.session := by
  rcases poll_cases s f c with ⟨st, -, hreturned⟩ | ⟨-, hpending⟩
  · rw [hreturned]
  · rw [hpending]

/-- Only a commit writes the session (R24). -/
theorem perform_session (s : State) (f : InFlight) (a : Act) :
    (s.perform f a).session = s.session ∨ a = .commit (s.perform f a).session := by
  cases a with
  | commit ses => exact .inr rfl
  | callT r => exact .inl (poll_session _ f _)
  | _ => exact .inl rfl

/-- The session stays, or an effect of the list commits it, while no reset comes. -/
theorem runActs_session (acts : List Act) (s : State) (h : s.noReset) :
    (runActs acts s).session = s.session ∨ .commit (runActs acts s).session ∈ acts := by
  refine (runActs_keeps
    (fun u => u.noReset ∧ (u.session = s.session ∨ .commit u.session ∈ acts)) ?_ acts ?_ s ⟨h, .inl rfl⟩).2
  · rintro u ⟨hu, hses⟩
    rw [(deliver_noReset u hu).1]
    exact ⟨toCome_deliver (·.isReset = false) u hu, hses⟩
  · rintro u f a ha - ⟨hu, hses⟩
    refine ⟨toCome_perform (·.isReset = false) u f a hu, ?_⟩
    rcases perform_session u f a with hkept | hcommit
    · rw [hkept]; exact hses
    · rw [hcommit] at ha; exact .inr ha

/-! ## What a step does to the session -/

/-- Where a step makes a commit: an IDLE block runs an item's rule, or a BUSY block what is left of its own. -/
inductive CommitSource (s : State) (ses : Session) : Prop
  | taken (item : PortItem) (i : Instr) (acts : List Act) (hidle : s.block.phase = .idle)
      (hitem : s.io.port.head? = some item) (hdecode : decode s.cfg item = .ok i)
      (hacts : actsOf i s.deliver.dropItem = .ok acts) (hcommit : .commit ses ∈ acts)
  | resumed (f g : InFlight) (u : State) (acts : List Act) (hbusy : s.block.phase = .busy f)
      (hlooked : u = s.deliver ∨ ∃ c, f.pending = some c ∧ u = s.deliver.poll f c) (hrun : u.block.running = some g)
      (hacts : actsOf g.op u = .ok acts) (hcommit : .commit ses ∈ acts.drop g.step)

/-- A step leaves the session, or makes a commit, while no reset comes. -/
theorem step_session (s t : State) (hnr : s.noReset) (h : step s = .next t) :
    t.session = s.session ∨ CommitSource s t.session := by
  obtain ⟨hses, hblock⟩ := deliver_noReset s hnr
  have hnr' : s.deliver.noReset := toCome_deliver (·.isReset = false) s hnr
  obtain ⟨-, ⟨f, hbusy, hresume⟩ | ⟨-, -, rfl⟩ | ⟨item, i, hidle, hfetch, hdecode, hexec⟩⟩ := step_next s t h
  · obtain ⟨u, hlooked, hcase⟩ := resume_next _ _ _ hresume
    obtain ⟨huses, hunr⟩ : u.session = s.session ∧ u.noReset := by
      rcases hlooked with rfl | ⟨c, -, rfl⟩
      · exact ⟨hses, hnr'⟩
      · exact ⟨(poll_session _ f c).trans hses, toCome_poll (·.isReset = false) _ f c hnr'⟩
    rcases hcase with ⟨-, rfl⟩ | ⟨g, acts, hrun, hacts, rfl⟩
    · exact .inl huses
    · rcases runActs_session (acts.drop g.step) u hunr with hkept | hcommit
      · exact .inl (hkept.trans huses)
      · exact .inr (.resumed f g u acts (hblock ▸ hbusy) hlooked hrun hacts hcommit)
  · exact .inl hses
  · rcases exec_next i _ t hexec with ⟨-, acts, hacts, rfl⟩ | ⟨w, d, rfl⟩
    · have haccepted : (s.deliver.dropItem.accept i).noReset := tickEvents_all (·.isReset = false) _ hnr'
      rcases runActs_session acts _ haccepted with hkept | hcommit
      · exact .inl (hkept.trans hses)
      · refine .inr (.taken item i acts (hblock ▸ hidle) ?_ (deliver_cfg s ▸ hdecode) hacts hcommit)
        rw [← hfetch, State.fetch, deliver_io]
    · exact .inl hses

/-- A commit that a step makes is of an INIT that passes its checks. -/
theorem CommitSource.exists_init {s : State} {ses : Session} (h : CommitSource s ses) :
    ∃ q, InitPasses q ∧ ses = initSession q := by
  cases h with
  | taken item i acts hidle hitem hdecode hacts hcommit =>
    obtain ⟨q, -, hpasses, hses⟩ := eq_init_of_commit_mem i _ acts ses hacts hcommit
    exact ⟨q, hpasses, hses⟩
  | resumed f g u acts hbusy hlooked hrun hacts hcommit =>
    obtain ⟨q, -, hpasses, hses⟩ := eq_init_of_commit_mem g.op u acts ses hacts (List.mem_of_mem_drop hcommit)
    exact ⟨q, hpasses, hses⟩

/-- An operation whose call has returned is at the position after it. -/
theorem poll_running_step (s : State) (f g : InFlight) (c : TCall) (h : (s.poll f c).block.running = some g) :
    g.step = f.step + 1 := by
  rcases poll_cases s f c with ⟨st, -, hreturned⟩ | ⟨-, hpending⟩
  · rw [hreturned] at h; cases h; rfl
  · rw [hpending] at h; cases h

/-- Settles O54: what a step commits is configured. -/
theorem configuredSessionStaysConfigured : Obligations.ConfiguredSessionStaysConfigured := by
  intro s t hnr hconfigured hstep
  rcases step_session s t hnr hstep with hkept | hsource
  · rw [hkept]; exact hconfigured
  · obtain ⟨q, hpasses, hses⟩ := hsource.exists_init
    rw [hses]; exact initSession_configured q hpasses

/-- Settles O50: a BUSY block of the invariant waits for a call, so its commit lies behind it, and only an INIT taken from
the input is left. -/
theorem onlyASuccessfulInitWritesTheSession : Obligations.OnlyASuccessfulInitWritesTheSession := by
  intro s t hinv hnr hstep hchanged
  rcases step_session s t hnr hstep with hkept | hsource
  · exact absurd hkept hchanged
  · cases hsource with
    | taken item i acts hidle hitem hdecode hacts hcommit =>
      obtain ⟨q, rfl, ⟨hhv, htp, hvariant⟩, hses⟩ := eq_init_of_commit_mem i _ acts _ hacts hcommit
      exact ⟨hidle, item, q, hitem, hdecode, hhv, htp, hvariant, hses⟩
    | resumed f g u acts hbusy hlooked hrun hacts hcommit =>
      exfalso
      rcases hlooked with rfl | ⟨c, -, rfl⟩
      · rw [(deliver_noReset s hnr).2, running_eq_none_of_waiting s hinv.block] at hrun
        cases hrun
      · rw [poll_running_step _ f g c hrun, ← List.drop_tail] at hcommit
        exact commit_notMem_tail g.op _ acts _ hacts (List.mem_of_mem_drop hcommit)

end Sys2Proof.Machine
end

section
/-! PROOFS. Parts of the state that no operation reads (O46, O47): the statuses already sent, and what stands in B.acc before
INIT clears it. Runs of two states that differ in such a part alone stay in step. -/

namespace Sys2Proof.Machine

/-- A relation of states that outside events and each effect keep, and that fixes which operation runs, relates the states
after running effects. -/
theorem runActs_related (R : State → State → Prop) (acts : List Act)
    (hrunning : ∀ s u, R s u → u.block.running = s.block.running)
    (hdeliver : ∀ s u, R s u → R s.deliver u.deliver)
    (hperform : ∀ s u f, ∀ a ∈ acts, R s u → R (s.perform f a) (u.perform f a)) (s u : State) (h : R s u) :
    R (runActs acts s) (runActs acts u) := by
  induction acts generalizing s u with
  | nil => exact h
  | cons a as ih =>
    have hnow := hdeliver s u h
    simp only [runActs, hrunning _ _ hnow]
    split
    · next f hf =>
      exact ih (fun s u f b hb => hperform s u f b (List.mem_cons_of_mem _ hb)) _ _
        (hperform _ _ f a List.mem_cons_self hnow)
    · exact hnow

/-! ## The parts of a step -/

/-- What a BUSY block does once it has looked at its call. -/
def State.goOn (s : State) : Host.Outcome State Fault Refusal :=
  match s.block.running with
  | none => .next s
  | some g =>
    match actsOf g.op s with
    | .error r => .refused r
    | .ok acts => .next (runActs (acts.drop g.step) s)

theorem resume_of_running (s : State) (f : InFlight) (h : f.pending = none) : s.resume f = s.goOn := by
  unfold State.resume
  rw [h]
  rfl

theorem resume_of_pending (s : State) (f : InFlight) (c : TCall) (h : f.pending = some c) :
    s.resume f = (s.poll f c).goOn := by
  unfold State.resume
  rw [h]
  rfl

/-- What the block does in a step, the due events having happened. -/
def State.act (s : State) : Host.Outcome State Fault Refusal :=
  match s.block.phase with
  | .busy f => s.resume f
  | .idle =>
    match s.fetch with
    | none => .next s.tick
    | some item =>
      match decode s.cfg item with
      | .error e => .refused (.undecodable e)
      | .ok i => exec i s.dropItem

theorem step_of_badAddress (s : State) (a : Nat) (h : badAddress s.cfg.addrW s.env.events = some a) :
    step s = .fault (.noSuchAddress a) := by
  unfold step
  rw [h]

theorem step_of_inRange (s : State) (h : badAddress s.cfg.addrW s.env.events = none) : step s = s.deliver.act := by
  unfold step
  rw [h]
  rfl

/-! ## The statuses already sent -/

/-- The state with these statuses sent before those it has sent. -/
def State.sentBefore (pre : List Byte) (s : State) : State :=
  { s with io := { s.io with responses := pre ++ s.io.responses } }

section
variable (pre : List Byte) (s : State)

theorem outside_sentBefore (act : EnvAct) : (s.sentBefore pre).outside act = (s.outside act).sentBefore pre := by
  cases act with
  | lateReturn status =>
    simp only [State.outside, State.lateReturn, State.sentBefore]
    split <;> rfl
  | _ => rfl

theorem deliver_sentBefore : (s.sentBefore pre).deliver = s.deliver.sentBefore pre := by
  have main : ∀ (es : List EnvEvent) (u : State),
      deliverEvents es (u.sentBefore pre) = (deliverEvents es u).sentBefore pre := by
    intro es
    induction es with
    | nil => exact fun _ => rfl
    | cons e es ih =>
      intro u
      simp only [deliverEvents]
      split
      · rw [outside_sentBefore, ih]
      · rfl
  exact main s.env.events s

theorem poll_sentBefore (f : InFlight) (c : TCall) : (s.sentBefore pre).poll f c = (s.poll f c).sentBefore pre := by
  rcases poll_cases s f c with ⟨st, hanswer, hreturned⟩ | ⟨hanswer, hpending⟩
  · rw [hreturned, poll_returned (s.sentBefore pre) f c st hanswer]
    rfl
  · rw [hpending, poll_pending (s.sentBefore pre) f c hanswer]
    rfl

/-- A response goes out after those already sent. -/
theorem finish_sentBefore (st : Byte) : (s.sentBefore pre).finish st = (s.finish st).sentBefore pre := by
  simp only [State.finish, State.sentBefore, State.tick, List.append_assoc]

theorem perform_sentBefore (f : InFlight) (a : Act) :
    (s.sentBefore pre).perform f a = (s.perform f a).sentBefore pre := by
  cases a with
  | callT r => exact poll_sentBefore pre { s with trace := s.trace ++ [.call (r.withCtx s.session.ctx)] } f _
  | respond st => exact finish_sentBefore pre s st
  | respondRet => exact finish_sentBefore pre s f.ret
  | respondAcc => exact finish_sentBefore pre { s with block := { s.block with acc := statusOk } } s.block.acc
  | _ => rfl

theorem runActs_sentBefore (acts : List Act) :
    runActs acts (s.sentBefore pre) = (runActs acts s).sentBefore pre :=
  runActs_related (fun s u => u = s.sentBefore pre) acts (fun _ _ h => h ▸ rfl)
    (fun s _ h => h ▸ deliver_sentBefore pre s) (fun s _ f a _ h => h ▸ perform_sentBefore pre s f a) s _ rfl

/-- The outcome with the state changed, where it is a next state. -/
def mapNext (g : State → State) : Host.Outcome State Fault Refusal → Host.Outcome State Fault Refusal
  | .next s => .next (g s)
  | .fault r => .fault r
  | .refused r => .refused r

theorem issue_sentBefore (i : Instr) (effects : Except Refusal (List Act)) :
    (s.sentBefore pre).issue i effects = mapNext (State.sentBefore pre) (s.issue i effects) := by
  cases hphase : s.block.phase with
  | busy f => rw [issue_busy s i effects f hphase, issue_busy (s.sentBefore pre) i effects f hphase]; rfl
  | idle =>
    cases effects with
    | error r => simp only [State.issue, State.sentBefore, hphase, mapNext]
    | ok acts =>
      rw [issue_idle s i acts hphase, issue_idle (s.sentBefore pre) i acts hphase]
      exact congrArg _ (runActs_sentBefore pre (s.accept i) acts)

theorem exec_sentBefore (i : Instr) : exec i (s.sentBefore pre) = mapNext (State.sentBefore pre) (exec i s) := by
  cases hreq : isRequest i with
  | true =>
    rw [exec_request i s hreq, exec_request i _ hreq, actsOf_congr i s (s.sentBefore pre) rfl rfl]
    exact issue_sentBefore pre s i _
  | false =>
    obtain ⟨w, d, hframe⟩ := exec_frame i hreq
    rw [hframe, hframe]
    rfl

theorem goOn_sentBefore : (s.sentBefore pre).goOn = mapNext (State.sentBefore pre) s.goOn := by
  unfold State.goOn
  rw [show (s.sentBefore pre).block.running = s.block.running from rfl]
  cases s.block.running with
  | none => rfl
  | some g =>
    simp only [actsOf_congr g.op s (s.sentBefore pre) rfl rfl]
    cases actsOf g.op s with
    | error r => rfl
    | ok acts => exact congrArg _ (runActs_sentBefore pre s _)

theorem resume_sentBefore (f : InFlight) :
    (s.sentBefore pre).resume f = mapNext (State.sentBefore pre) (s.resume f) := by
  cases hpending : f.pending with
  | none => rw [resume_of_running s f hpending, resume_of_running _ f hpending, goOn_sentBefore]
  | some c => rw [resume_of_pending s f c hpending, resume_of_pending _ f c hpending, poll_sentBefore, goOn_sentBefore]

theorem act_sentBefore : (s.sentBefore pre).act = mapNext (State.sentBefore pre) s.act := by
  unfold State.act
  rw [show (s.sentBefore pre).block = s.block from rfl, show (s.sentBefore pre).fetch = s.fetch from rfl,
    show (s.sentBefore pre).cfg = s.cfg from rfl]
  cases s.block.phase with
  | busy f => exact resume_sentBefore pre s f
  | idle =>
    cases s.fetch with
    | none => rfl
    | some item =>
      cases hdecode : decode s.cfg item with
      | error e => simp only [hdecode, mapNext]
      | ok i =>
        simp only [hdecode]
        exact exec_sentBefore pre s.dropItem i

/-- A step of a state with other statuses sent is the same step. -/
theorem step_sentBefore : step (s.sentBefore pre) = mapNext (State.sentBefore pre) (step s) := by
  cases hbad : badAddress s.cfg.addrW s.env.events with
  | some a => rw [step_of_badAddress s a hbad, step_of_badAddress (s.sentBefore pre) a hbad]; rfl
  | none =>
    rw [step_of_inRange s hbad, step_of_inRange (s.sentBefore pre) hbad, deliver_sentBefore]
    exact act_sentBefore pre s.deliver

end

/-- Settles O46: both steps are the step of the state that has sent nothing, with other statuses sent before. -/
theorem sentStatusesHaveNoEffect : Obligations.SentStatusesHaveNoEffect := by
  intro s before after
  have hstep : ∀ pre, step { s with io := { s.io with responses := pre } } =
      mapNext (State.sentBefore pre) (step { s with io := { s.io with responses := [] } }) := fun pre => by
    rw [← step_sentBefore]
    simp only [State.sentBefore, List.append_nil]
  rw [hstep before, hstep after]
  cases step { s with io := { s.io with responses := [] } } with
  | next t => exact ⟨t.io.responses, rfl, rfl, rfl⟩
  | fault r => exact rfl
  | refused r => exact rfl

/-! ## What is left in B.acc -/

/-- The state with another byte in B.acc. -/
def State.withAcc (x : Byte) (s : State) : State := { s with block := { s.block with acc := x } }

/-- The states differ in B.acc at most. -/
def EqButAcc (s u : State) : Prop := ∃ x, u = s.withAcc x

/-- Does the effect read or write B.acc? -/
def Act.usesAcc : Act → Bool
  | .commit _ => false
  | .clearAcc => true
  | .callT _ => false
  | .orAcc => true
  | .store _ _ => false
  | .respond _ => false
  | .respondRet => false
  | .respondAcc => true

theorem outside_withAcc (s : State) (x : Byte) (act : EnvAct) :
    EqButAcc (s.outside act) ((s.withAcc x).outside act) := by
  cases act with
  | reset => exact ⟨0x00, rfl⟩
  | lateReturn status =>
    refine ⟨x, ?_⟩
    simp only [State.outside, State.lateReturn, State.withAcc]
    split <;> rfl
  | _ => exact ⟨x, rfl⟩

theorem deliver_eqButAcc (s u : State) (h : EqButAcc s u) : EqButAcc s.deliver u.deliver := by
  have main : ∀ (es : List EnvEvent) (s u : State), EqButAcc s u →
      EqButAcc (deliverEvents es s) (deliverEvents es u) := by
    intro es
    induction es with
    | nil => rintro s _ ⟨x, rfl⟩; exact ⟨x, rfl⟩
    | cons e es ih =>
      rintro s _ ⟨x, rfl⟩
      simp only [deliverEvents]
      split
      · exact ih _ _ (outside_withAcc s x e.act)
      · exact ⟨x, rfl⟩
  obtain ⟨x, rfl⟩ := h
  exact main s.env.events s _ ⟨x, rfl⟩

theorem poll_withAcc (s : State) (x : Byte) (f : InFlight) (c : TCall) :
    (s.withAcc x).poll f c = (s.poll f c).withAcc x := by
  rcases poll_cases s f c with ⟨st, hanswer, hreturned⟩ | ⟨hanswer, hpending⟩
  · rw [hreturned, poll_returned (s.withAcc x) f c st hanswer]
    rfl
  · rw [hpending, poll_pending (s.withAcc x) f c hanswer]
    rfl

theorem perform_withAcc (s : State) (x : Byte) (f : InFlight) (a : Act) (h : a.usesAcc = false) :
    (s.withAcc x).perform f a = (s.perform f a).withAcc x := by
  cases a with
  | callT r => exact poll_withAcc { s with trace := s.trace ++ [.call (r.withCtx s.session.ctx)] } x f _
  | clearAcc => cases h
  | orAcc => cases h
  | respondAcc => cases h
  | _ => rfl

theorem runActs_eqButAcc (acts : List Act) (hacts : ∀ a ∈ acts, a.usesAcc = false) (s u : State)
    (h : EqButAcc s u) : EqButAcc (runActs acts s) (runActs acts u) := by
  refine runActs_related EqButAcc acts ?_ deliver_eqButAcc ?_ s u h
  · rintro s _ ⟨x, rfl⟩
    rfl
  · rintro s _ f a ha ⟨x, rfl⟩
    exact ⟨x, perform_withAcc s x f a (hacts a ha)⟩

/-- A rule does not use B.acc, or commits and clears it before anything else. -/
theorem actsOf_usesAcc (i : Instr) (s : State) (acts : List Act) (h : actsOf i s = .ok acts) :
    (∀ a ∈ acts, a.usesAcc = false) ∨ ∃ ses as, acts = .commit ses :: .clearAcc :: as := by
  have hraise : ∀ st, ∀ a ∈ raise st, a.usesAcc = false := fun st a ha => by
    rw [raise, List.mem_singleton] at ha
    rw [ha]
    rfl
  cases i with
  | init q =>
    cases h
    rcases initActs_cases q with ⟨st, hacts⟩ | ⟨-, hacts⟩
    · exact .inl (hacts ▸ hraise st)
    · exact .inr ⟨_, _, hacts⟩
  | write q =>
    cases h
    refine .inl ?_
    rcases writeActs_cases s.cfg s.session q with ⟨st, hacts⟩ | ⟨-, F, hacts⟩
    · rw [hacts]; exact hraise st
    · rw [hacts]; simp [Act.usesAcc]
  | format q =>
    refine .inl ?_
    rcases formatActs_cases s.cfg s.session q acts h with ⟨st, rfl⟩ | ⟨-, F, rfl⟩
    · exact hraise st
    · simp [formatStores, or_imp, forall_and, Act.usesAcc]
  | rsvd => cases h; exact .inl (hraise statusError)
  | _ => cases h; exact .inl (fun a ha => nomatch ha)

/-- An accepted request runs to the same state but for B.acc, whatever B.acc held. -/
theorem runActs_accept_eqButAcc (s : State) (x : Byte) (i : Instr) (acts : List Act) (hready : s.ready)
    (hacts : actsOf i s = .ok acts) :
    EqButAcc (runActs acts (s.accept i)) (runActs acts ((s.withAcc x).accept i)) := by
  rcases actsOf_usesAcc i s acts hacts with hnone | ⟨ses, as, rfl⟩
  · exact runActs_eqButAcc acts hnone _ _ ⟨x, rfl⟩
  · have hquiet : (s.accept i).env.events = [] := by rw [accept_env, hready.2]; rfl
    rw [runActs_commit (s.accept i) _ ses as hquiet rfl, runActs_commit ((s.withAcc x).accept i) _ ses as hquiet rfl]
    exact ⟨_, rfl⟩

/-- Settles O47: an INIT that passes its checks clears B.acc before it reads it, and no other rule uses it. -/
theorem leftoverAccumulatorHasNoEffect : Obligations.LeftoverAccumulatorHasNoEffect := by
  intro s t i x hready hexec
  suffices h : ∃ u, exec i (s.withAcc x) = .next u ∧ EqButAcc t u by
    obtain ⟨_, hu, y, rfl⟩ := h
    exact ⟨_, hu, rfl⟩
  cases hreq : isRequest i with
  | true =>
    rw [exec_request i s hreq] at hexec
    obtain ⟨hidle, acts, hacts, rfl⟩ := issue_next s t i _ hexec
    refine ⟨_, ?_, runActs_accept_eqButAcc s x i acts hready hacts⟩
    rw [exec_request i _ hreq, actsOf_congr i s (s.withAcc x) rfl rfl, hacts]
    exact issue_idle _ i acts hidle
  | false =>
    obtain ⟨w, d, hframe⟩ := exec_frame i hreq
    rw [hframe] at hexec
    cases hexec
    exact ⟨_, hframe _, x, rfl⟩

end Sys2Proof.Machine
end

section
/-! PROOFS. DMEM as a reader sees it (O28), and which effects and outside events write it. -/

namespace Sys2Proof.Machine

/-! ## Reads -/

theorem dmemRead_of_find {m : List Host.Cell} {a : Nat} {b : Byte} (h : dmemFind m a = some b) : dmemRead m a = b := by
  rw [dmemRead, h, Option.getD_some]

theorem dmemRead_congr {m m' : List Host.Cell} {a : Nat} (h : dmemFind m a = dmemFind m' a) :
    dmemRead m a = dmemRead m' a := by
  rw [dmemRead, dmemRead, h]

/-- Settles O28: the byte written is found at its address, and what is found elsewhere stays. -/
theorem dmemReadsWhatWasWritten : Obligations.DmemReadsWhatWasWritten := by
  intro m a c b
  split
  · next hsame => exact dmemRead_of_find (by rw [dmemFind_write, if_pos hsame])
  · next hother => exact dmemRead_congr (dmemFind_write_other m a c b hother)

/-! ## Writes -/

@[simp] theorem poll_dmem (s : State) (f : InFlight) (c : TCall) : (s.poll f c).dmem = s.dmem := by
  rcases poll_cases s f c with ⟨st, -, hreturned⟩ | ⟨-, hpending⟩
  · rw [hreturned]
  · rw [hpending]

/-- Only a byte write writes DMEM (R34). -/
theorem perform_dmem (s : State) (f : InFlight) (a : Act) :
    (s.perform f a).dmem = s.dmem ∨
      ∃ addr b, a = .store addr b ∧ (s.perform f a).dmem = dmemWrite s.dmem addr b := by
  cases a with
  | store addr b => exact .inr ⟨addr, b, rfl, rfl⟩
  | callT r => exact .inl (poll_dmem _ f _)
  | _ => exact .inl rfl

/-- Of the outside events only another agent's write writes DMEM. -/
theorem outside_dmem (s : State) (act : EnvAct) :
    (s.outside act).dmem = s.dmem ∨ ∃ a b, act = .write a b ∧ (s.outside act).dmem = dmemWrite s.dmem a b := by
  cases act with
  | write a b => exact .inr ⟨a, b, rfl, rfl⟩
  | lateReturn status => exact .inl (lateReturn_dmem s status)
  | _ => exact .inl rfl

theorem deliver_dmem (s : State) (h : s.noOtherWrite) : s.deliver.dmem = s.dmem := by
  refine deliver_keeps (fun u => u.dmem = s.dmem) s (fun _ _ hu => hu) (fun e he u hu => ?_) rfl
  rcases outside_dmem u e.act with hkept | ⟨a, b, hwrite, -⟩
  · exact hkept.trans hu
  · have hnot := h e he
    rw [hwrite] at hnot
    cases hnot

/-- Effects that write no byte leave DMEM alone, while no other agent's write comes. -/
theorem runActs_dmem (acts : List Act) (s : State) (hother : s.noOtherWrite)
    (hacts : ∀ a b, .store a b ∉ acts) : (runActs acts s).dmem = s.dmem := by
  refine (runActs_keeps (fun u => u.noOtherWrite ∧ u.dmem = s.dmem) ?_ acts ?_ s ⟨hother, rfl⟩).2
  · rintro u ⟨hu, hdmem⟩
    exact ⟨toCome_deliver (·.isWrite = false) u hu, (deliver_dmem u hu).trans hdmem⟩
  · rintro u f a ha - ⟨hu, hdmem⟩
    refine ⟨toCome_perform (·.isWrite = false) u f a hu, ?_⟩
    rcases perform_dmem u f a with hkept | ⟨addr, b, rfl, -⟩
    · exact hkept.trans hdmem
    · exact absurd ha (hacts addr b)

/-- The addresses that DMEM lists stay strictly rising, whatever the effects and the outside events are. -/
theorem runActs_rising (acts : List Act) (s : State) (h : (s.dmem.map Prod.fst).Pairwise (· < ·)) :
    ((runActs acts s).dmem.map Prod.fst).Pairwise (· < ·) := by
  refine runActs_keeps (fun u => (u.dmem.map Prod.fst).Pairwise (· < ·)) (fun u hu => ?_) acts
    (fun u f a _ _ hu => ?_) s h
  · refine deliver_keeps (fun v => (v.dmem.map Prod.fst).Pairwise (· < ·)) u (fun _ _ hv => hv) (fun e _ v hv => ?_) hu
    rcases outside_dmem v e.act with hkept | ⟨a, b, -, hwritten⟩
    · rw [hkept]; exact hv
    · rw [hwritten]; exact dmemWrite_rising v.dmem a b hv
  · rcases perform_dmem u f a with hkept | ⟨addr, b, -, hwritten⟩
    · rw [hkept]; exact hu
    · rw [hwritten]; exact dmemWrite_rising u.dmem addr b hu

@[simp] theorem runActs_cfg (acts : List Act) (s : State) : (runActs acts s).cfg = s.cfg :=
  runActs_keeps (fun u => u.cfg = s.cfg) (fun u hu => (deliver_cfg u).trans hu) acts
    (fun u f a _ _ hu => (perform_cfg u f a).trans hu) s rfl

/-- Running effects lists no outside event where none was to come. -/
theorem runActs_quiet (acts : List Act) (s : State) (h : s.env.events = []) : (runActs acts s).env.events = [] :=
  runActs_keeps (fun u => u.env.events = []) (fun u hu => (deliver_quiet u hu).symm ▸ hu) acts
    (fun u f a _ _ hu => perform_quiet u f a hu) s h

/-! ## No outside event, or one -/

theorem toCome_of_quiet {s : State} (p : EnvAct → Prop) (h : s.env.events = []) : s.toCome p := by
  rw [State.toCome, h]
  exact List.forall_mem_nil _

theorem noReset_of_quiet {s : State} (h : s.env.events = []) : s.noReset := toCome_of_quiet (·.isReset = false) h

theorem noOtherWrite_of_quiet {s : State} (h : s.env.events = []) : s.noOtherWrite :=
  toCome_of_quiet (·.isWrite = false) h

theorem toCome_of_one {s : State} {e : EnvEvent} (p : EnvAct → Prop) (h : s.env.events = [e]) (he : p e.act) :
    s.toCome p := by
  rw [State.toCome, h]
  exact List.forall_mem_singleton.2 he

/-! ## What is found at an address -/

/-- The outside event, if it writes the byte at `c`, leaves there what `P` allows. -/
def EnvAct.writesOnly (c : Nat) (P : Option Byte → Prop) : EnvAct → Prop
  | .reset => True
  | .read _ => True
  | .write a b => a = c → P (some b)
  | .lateReturn _ => True

theorem writesOnly_of_not_isWrite {act : EnvAct} (c : Nat) (P : Option Byte → Prop) (h : act.isWrite = false) :
    act.writesOnly c P := by
  cases act with
  | write a b => cases h
  | _ => trivial

/-- What is allowed at an address is so after a write that writes there only what is allowed. -/
theorem found_dmemWrite {P : Option Byte → Prop} {m : List Host.Cell} {c a : Nat} {b : Byte}
    (hwrite : a = c → P (some b)) (h : a ≠ c → P (dmemFind m c)) : P (dmemFind (dmemWrite m a b) c) := by
  rw [dmemFind_write]
  split
  · next heq => exact hwrite heq.symm
  · next hne => exact h (Ne.symm hne)

theorem deliver_found (s : State) (c : Nat) (P : Option Byte → Prop) (hother : s.toCome (EnvAct.writesOnly c P))
    (h : P (dmemFind s.dmem c)) : P (dmemFind s.deliver.dmem c) := by
  refine deliver_keeps (fun u => P (dmemFind u.dmem c)) s (fun _ _ hu => hu) (fun e he u hu => ?_) h
  rcases outside_dmem u e.act with hkept | ⟨a, b, hact, hwritten⟩
  · rw [hkept]; exact hu
  · have honly := hother e he
    rw [hact] at honly
    rw [hwritten]
    exact found_dmemWrite honly fun _ => hu

end Sys2Proof.Machine
end

section
/-! PROOFS. FORMAT's rule: its checks in their order (O29), and the byte writes of a FORMAT that passes them. -/

namespace Sys2Proof.Machine

/-! ## The checks -/

/-- R69, R79: the encoder knows the variants 0, 1 and 2. -/
theorem encodeDesc_eq_none_iff (c : Config) (v : Nat) (d : RawDesc) : encodeDesc c v d = none ↔ 2 < v := by
  match v with
  | 0 => simp [encodeDesc, widthOf]
  | 1 => simp [encodeDesc, widthOf]
  | 2 => simp [encodeDesc, widthOf]
  | n + 3 => simp [encodeDesc, widthOf]

theorem exec_format_of_raise (s : State) (q : FormatArgs) (st : Byte) (hready : s.ready)
    (h : formatActs s.cfg s.session q = .ok (raise st)) : exec (.format q) s = .next (s.reply st) := by
  rw [exec_request _ s rfl, actsOf, h, issue_raise s _ st hready]

theorem exec_format_of_refused (s : State) (q : FormatArgs) (r : Refusal) (hidle : s.block.phase = .idle)
    (h : formatActs s.cfg s.session q = .error r) : exec (.format q) s = .refused r := by
  rw [exec_request _ s rfl, actsOf, h, State.issue, hidle]

/-- Settles O29: the rule's first failing check gives its effects. -/
theorem formatChecksInOrder : Obligations.FormatChecksInOrder := by
  intro s q hready
  refine ⟨fun hhv => ?hv, fun hhv hdv => ?dv, fun hhv hdv hvariant => ?variant, fun hhv hdv hvariant hrange => ?range⟩
  case hv => exact exec_format_of_raise s q _ hready (by simp [formatActs, hhv, statusInvalidArgument])
  case dv => exact exec_format_of_raise s q _ hready (by simp [formatActs, hhv, hdv, statusInvalidArgument])
  case variant =>
    have hencode := (encodeDesc_eq_none_iff s.cfg _ (descOperand q.desc)).2 hvariant
    exact exec_format_of_raise s q _ hready (by simp [formatActs, hhv, hdv, hencode, statusUnknownVersion])
  case range =>
    obtain ⟨F, hencode⟩ := Option.ne_none_iff_exists'.1
      (mt (encodeDesc_eq_none_iff s.cfg _ (descOperand q.desc)).1 (Nat.not_lt.2 hvariant))
    exact exec_format_of_refused s q _ hready.1 (by simp [formatActs, hhv, hdv, hencode, hrange])

/-! ## The byte writes -/

/-- The fields of FORMAT pass its checks in the session (R93), and its range lies inside DMEM (R41). -/
def FormatPasses (c : Config) (ses : Session) (q : FormatArgs) : Prop :=
  q.hv = true ∧ q.dv = true ∧ ses.variant.toNat ≤ 2 ∧ q.destBase + q.length ≤ 2 ^ c.addrW

/-- The bytes that FORMAT writes, in their order (R94). -/
def formatCells (F : Frame) (q : FormatArgs) : List Host.Cell :=
  (List.range q.length).map fun j => (q.destBase + j, frameByte F (j % 4))

@[simp] theorem length_formatCells (F : Frame) (q : FormatArgs) : (formatCells F q).length = q.length := by
  simp [formatCells]

theorem mem_formatCells (F : Frame) (q : FormatArgs) (cell : Host.Cell) :
    cell ∈ formatCells F q ↔ ∃ j < q.length, (q.destBase + j, frameByte F (j % 4)) = cell := by
  simp [formatCells]

/-- The effects that write these bytes one after the other and then respond. -/
def storeActs (l : List Host.Cell) (st : Byte) : List Act := l.map (fun p => .store p.1 p.2) ++ [.respond st]

@[simp] theorem storeActs_nil (st : Byte) : storeActs [] st = [.respond st] := rfl

@[simp] theorem storeActs_cons (p : Host.Cell) (l : List Host.Cell) (st : Byte) :
    storeActs (p :: l) st = .store p.1 p.2 :: storeActs l st := rfl

theorem commit_notMem_storeActs (l : List Host.Cell) (st : Byte) (ses : Session) : .commit ses ∉ storeActs l st := by
  simp [storeActs]

theorem callT_notMem_storeActs (l : List Host.Cell) (st : Byte) (r : CallReq) : .callT r ∉ storeActs l st := by
  simp [storeActs]

theorem formatActs_of_passes (c : Config) (ses : Session) (q : FormatArgs) (h : FormatPasses c ses q) :
    ∃ F, encodeDesc c ses.variant.toNat (descOperand q.desc) = some F ∧
      formatActs c ses q = .ok (storeActs (formatCells F q) statusOk) := by
  obtain ⟨hhv, hdv, hvariant, hrange⟩ := h
  obtain ⟨F, hencode⟩ := Option.ne_none_iff_exists'.1
    (mt (encodeDesc_eq_none_iff c _ (descOperand q.desc)).1 (Nat.not_lt.2 hvariant))
  refine ⟨F, hencode, ?_⟩
  simp [formatActs, hhv, hdv, hencode, Nat.not_lt.2 hrange, storeActs, formatCells, formatStores]

/-- A FORMAT that is not refused raises a status or passes its checks. -/
theorem raise_or_passes_of_formatActs (c : Config) (ses : Session) (q : FormatArgs) (acts : List Act)
    (h : formatActs c ses q = .ok acts) : (∃ st, acts = raise st) ∨ FormatPasses c ses q := by
  unfold formatActs at h
  split at h
  · cases h; exact .inl ⟨_, rfl⟩
  · next hhv =>
    split at h
    · cases h; exact .inl ⟨_, rfl⟩
    · next hdv =>
      split at h
      · cases h; exact .inl ⟨_, rfl⟩
      · next F hencode =>
        split at h
        · cases h
        · next hrange =>
          have hvariant : ¬ 2 < ses.variant.toNat := fun hlt => by
            rw [(encodeDesc_eq_none_iff c _ _).2 hlt] at hencode
            cases hencode
          exact .inr ⟨Bool.of_not_eq_false hhv, Bool.of_not_eq_false hdv, Nat.not_lt.1 hvariant, Nat.not_lt.1 hrange⟩

end Sys2Proof.Machine
end

section
/-! PROOFS. A FORMAT that runs while outside events other than a reset come: it completes, and what each byte of DMEM
holds then. What O32, O33, O37 and O38 say of DMEM are uses of `runActs_storeActs_found`. -/

namespace Sys2Proof.Machine

/-! ## Byte writes and a response -/

/-- The next effect of a running operation, while no reset comes. -/
theorem runActs_noReset (a : Act) (as : List Act) (s : State) (f : InFlight) (hnr : s.noReset)
    (hf : s.block.running = some f) : runActs (a :: as) s = runActs as (s.deliver.perform f a) := by
  simp only [runActs, (deliver_noReset s hnr).2, hf]

/-- The operation completes. -/
theorem runActs_storeActs_completes (l : List Host.Cell) (st : Byte) (s : State) (f : InFlight) (hnr : s.noReset)
    (hf : s.block.running = some f) :
    (runActs (storeActs l st) s).block.phase = .idle ∧
      (runActs (storeActs l st) s).io = { s.io with responses := s.io.responses ++ [st] } := by
  induction l generalizing s f with
  | nil =>
    rw [storeActs_nil, runActs_noReset _ _ s f hnr hf, runActs_nil]
    refine ⟨rfl, ?_⟩
    rw [State.perform, finish_io, deliver_io]
  | cons p l ih =>
    rw [storeActs_cons, runActs_noReset _ _ s f hnr hf]
    have hnr' : (s.deliver.perform f (.store p.1 p.2)).noReset :=
      toCome_perform (·.isReset = false) _ f _ (toCome_deliver (·.isReset = false) s hnr)
    obtain ⟨hidle, hio⟩ := ih _ { f with step := f.step + 1, pending := none } hnr' rfl
    refine ⟨hidle, ?_⟩
    rw [hio, State.perform, proceed_io, deliver_io]

/-- What is found at an address after the run is what `P` allows, when all that is written there is: by the block and by
other agents, and before the run unless the block writes that byte. -/
theorem runActs_storeActs_found (P : Option Byte → Prop) (c : Nat) (l : List Host.Cell) (st : Byte) (s : State)
    (f : InFlight) (hnr : s.noReset) (hf : s.block.running = some f) (hother : s.toCome (EnvAct.writesOnly c P))
    (hstores : ∀ p ∈ l, p.1 = c → P (some p.2)) (hfirst : P (dmemFind s.dmem c) ∨ ∃ p ∈ l, p.1 = c) :
    P (dmemFind (runActs (storeActs l st) s).dmem c) := by
  induction l generalizing s f with
  | nil =>
    rw [storeActs_nil, runActs_noReset _ _ s f hnr hf, runActs_nil]
    exact deliver_found s c P hother (hfirst.resolve_right (by simp))
  | cons p l ih =>
    obtain ⟨hhead, htail⟩ := List.forall_mem_cons.1 hstores
    rw [storeActs_cons, runActs_noReset _ _ s f hnr hf]
    refine ih _ { f with step := f.step + 1, pending := none }
      (toCome_perform (·.isReset = false) _ f _ (toCome_deliver (·.isReset = false) s hnr)) rfl
      (toCome_perform _ _ f _ (toCome_deliver _ s hother)) htail ?_
    rcases hfirst with hbefore | ⟨p', hmem, hp'⟩
    · exact .inl (found_dmemWrite hhead fun _ => deliver_found s c P hother hbefore)
    · rcases List.mem_cons.1 hmem with rfl | hmem
      · exact .inl (found_dmemWrite hhead fun hne => absurd hp' hne)
      · exact .inr ⟨p', hmem, hp'⟩

/-! ## The state after FORMAT -/

/-- The state that a FORMAT with this frame ends in, when it passes its checks. -/
def State.formatted (s : State) (q : FormatArgs) (F : Frame) : State :=
  runActs (storeActs (formatCells F q) statusOk) (s.accept (.format q))

theorem exec_format_of_passes (s : State) (q : FormatArgs) (hidle : s.block.phase = .idle)
    (h : FormatPasses s.cfg s.session q) :
    ∃ F, encodeDesc s.cfg s.session.variant.toNat (descOperand q.desc) = some F ∧
      exec (.format q) s = .next (s.formatted q F) := by
  obtain ⟨F, hencode, hacts⟩ := formatActs_of_passes s.cfg s.session q h
  refine ⟨F, hencode, ?_⟩
  rw [exec_request _ s rfl, actsOf, hacts, issue_idle s _ _ hidle, State.formatted]

section
variable (s : State) (q : FormatArgs) (F : Frame) (hnr : s.noReset)
include hnr

/-- FORMAT sends OK and the block is IDLE again (R96). -/
theorem formatted_completes :
    (s.formatted q F).block.phase = .idle ∧
      (s.formatted q F).io = { s.io with responses := s.io.responses ++ [0x00] } :=
  runActs_storeActs_completes _ _ (s.accept (.format q)) _ (tickEvents_all (·.isReset = false) _ hnr) rfl

theorem formatted_session : (s.formatted q F).session = s.session :=
  (runActs_session _ (s.accept (.format q)) (tickEvents_all (·.isReset = false) _ hnr)).resolve_right
    (commit_notMem_storeActs _ _ _)

theorem formatted_found (P : Option Byte → Prop) (c : Nat) (hother : s.toCome (EnvAct.writesOnly c P))
    (hstores : ∀ j < q.length, q.destBase + j = c → P (some (frameByte F (j % 4))))
    (hfirst : P (dmemFind s.dmem c) ∨ ∃ j < q.length, q.destBase + j = c) :
    P (dmemFind (s.formatted q F).dmem c) := by
  refine runActs_storeActs_found P c _ _ (s.accept (.format q)) _ (tickEvents_all (·.isReset = false) _ hnr) rfl
    (tickEvents_all _ _ hother) (fun p hp hc => ?_) (hfirst.imp id ?_)
  · obtain ⟨j, hj, rfl⟩ := (mem_formatCells F q p).1 hp
    exact hstores j hj hc
  · rintro ⟨j, hj, hc⟩
    exact ⟨_, (mem_formatCells F q _).2 ⟨j, hj, rfl⟩, hc⟩

/-- A byte of the range that no other agent writes is its frame byte (R94). -/
theorem formatted_find_inside (j : Nat) (hj : j < q.length)
    (hother : s.toCome (EnvAct.writesOnly (q.destBase + j) (· = some (frameByte F (j % 4))))) :
    dmemFind (s.formatted q F).dmem (q.destBase + j) = some (frameByte F (j % 4)) :=
  formatted_found s q F hnr (· = some (frameByte F (j % 4))) _ hother
    (fun i _ hi => by rw [Nat.add_left_cancel hi]) (.inr ⟨j, hj, rfl⟩)

/-- A byte outside the range that no other agent writes stays (R39). -/
theorem formatted_find_outside (a : Nat) (ha : a < q.destBase ∨ q.destBase + q.length ≤ a)
    (hother : s.toCome (EnvAct.writesOnly a (· = dmemFind s.dmem a))) :
    dmemFind (s.formatted q F).dmem a = dmemFind s.dmem a :=
  formatted_found s q F hnr (· = dmemFind s.dmem a) a hother (fun i hi heq => by omega) (.inl rfl)

end

/-! ## No other agent writes -/

section
variable (s : State) (q : FormatArgs) (F : Frame) (hnr : s.noReset) (hother : s.noOtherWrite)
include hnr hother

theorem formatted_find_inside_alone (j : Nat) (hj : j < q.length) :
    dmemFind (s.formatted q F).dmem (q.destBase + j) = some (frameByte F (j % 4)) :=
  formatted_find_inside s q F hnr j hj fun e he => writesOnly_of_not_isWrite _ _ (hother e he)

theorem formatted_find_outside_alone (a : Nat) (ha : a < q.destBase ∨ q.destBase + q.length ≤ a) :
    dmemFind (s.formatted q F).dmem a = dmemFind s.dmem a :=
  formatted_find_outside s q F hnr a ha fun e he => writesOnly_of_not_isWrite _ _ (hother e he)

end

/-- Settles O32: byte i of repeat k is byte i of the frame, and the four bytes of a frame make that frame. -/
theorem formattedRepeatReadsBigEndian : Obligations.FormattedRepeatReadsBigEndian := by
  intro s q k hready hhv hdv hvariant hrange hk
  obtain ⟨F, hencode, hexec⟩ := exec_format_of_passes s q hready.1 ⟨hhv, hdv, hvariant, hrange⟩
  have hread : ∀ i < 4, dmemRead (s.formatted q F).dmem (q.destBase + 4 * k + i) = frameByte F i := by
    intro i hi
    have hfind := formatted_find_inside_alone s q F (noReset_of_quiet hready.2) (noOtherWrite_of_quiet hready.2)
      (4 * k + i) (by omega)
    rw [Nat.mul_add_mod, Nat.mod_eq_of_lt hi, ← Nat.add_assoc] at hfind
    exact dmemRead_of_find hfind
  have h0 := hread 0 (by omega)
  have h1 := hread 1 (by omega)
  have h2 := hread 2 (by omega)
  have h3 := hread 3 (by omega)
  refine ⟨F, _, hencode, hexec, ?_, ?_⟩
  · rw [dmemReadBE, h1, h2, h3, ← Nat.add_zero (q.destBase + 4 * k), h0, frameOfBytes_frameByte]
  · rw [dmemReadLE, h1, h2, h3, ← Nat.add_zero (q.destBase + 4 * k), h0, frameOfBytes]

/-! ## The same FORMAT again -/

/-- A second FORMAT finds the bytes that the first has written. -/
theorem formatted_formatted_dmem (s : State) (q : FormatArgs) (F : Frame) (hquiet : s.env.events = [])
    (hrising : (s.dmem.map Prod.fst).Pairwise (· < ·)) :
    ((s.formatted q F).formatted q F).dmem = (s.formatted q F).dmem := by
  have hquiet' : (s.formatted q F).env.events = [] := runActs_quiet _ _ (by rw [accept_env, hquiet]; rfl)
  have hrising' : ((s.formatted q F).dmem.map Prod.fst).Pairwise (· < ·) := runActs_rising _ _ hrising
  refine dmem_ext _ _ (runActs_rising _ _ hrising') hrising' fun a => ?_
  by_cases ha : a < q.destBase ∨ q.destBase + q.length ≤ a
  · exact formatted_find_outside_alone _ q F (noReset_of_quiet hquiet') (noOtherWrite_of_quiet hquiet') a ha
  · obtain ⟨j, rfl⟩ := Nat.exists_eq_add_of_le (show q.destBase ≤ a by omega)
    have hj : j < q.length := by omega
    rw [formatted_find_inside_alone s q F (noReset_of_quiet hquiet) (noOtherWrite_of_quiet hquiet) j hj,
      formatted_find_inside_alone _ q F (noReset_of_quiet hquiet') (noOtherWrite_of_quiet hquiet') j hj]

/-- Settles O33: a FORMAT that raises a status writes no byte, and raises it again; one that passes its checks passes
them again in the same session, and writes the same bytes. -/
theorem formatIsIdempotent : Obligations.FormatIsIdempotent := by
  intro s t q hready hwf hexec
  obtain ⟨hidle, hquiet⟩ := hready
  have hissue := hexec
  rw [exec_request _ s rfl] at hissue
  obtain ⟨-, acts, hacts, -⟩ := issue_next s t _ _ hissue
  rcases raise_or_passes_of_formatActs s.cfg s.session q acts hacts with ⟨st, rfl⟩ | hpasses
  · rw [exec_format_of_raise s q st ⟨hidle, hquiet⟩ hacts] at hexec
    cases hexec
    exact ⟨⟨_, exec_format_of_raise (s.reply st) q st ⟨hidle, hquiet⟩ hacts, rfl⟩, fun _ _ => rfl⟩
  · obtain ⟨F, hencode, hfirst⟩ := exec_format_of_passes s q hidle hpasses
    rw [hfirst] at hexec
    cases hexec
    have hnr := noReset_of_quiet hquiet
    have hcfg : (s.formatted q F).cfg = s.cfg := runActs_cfg _ _
    have hses := formatted_session s q F hnr
    obtain ⟨hidle', -⟩ := formatted_completes s q F hnr
    obtain ⟨F', hencode', hsecond⟩ := exec_format_of_passes (s.formatted q F) q hidle'
      (by rw [hcfg, hses]; exact hpasses)
    rw [hcfg, hses, hencode] at hencode'
    cases hencode'
    refine ⟨⟨_, hsecond, formatted_formatted_dmem s q F hquiet hwf.1⟩, fun a ha => ?_⟩
    exact dmemRead_congr (formatted_find_outside_alone s q F hnr (noOtherWrite_of_quiet hquiet) a ha)

/-! ## Another agent's write (R45) -/

/-- Settles O37: at the byte that races, the block and the other agent each write an allowed value; at every other byte
the other agent writes nothing. -/
theorem racingWriteIsKeptOrOverwritten : Obligations.RacingWriteIsKeptOrOverwritten := by
  intro s q k j b hidle hevents hj hhv hdv hvariant hrange
  obtain ⟨F, hencode, hexec⟩ := exec_format_of_passes s q hidle ⟨hhv, hdv, hvariant, hrange⟩
  have hnr : s.noReset := toCome_of_one (·.isReset = false) hevents rfl
  have hother : ∀ (c : Nat) (P : Option Byte → Prop), (q.destBase + j = c → P (some b)) →
      s.toCome (EnvAct.writesOnly c P) := fun c P hP => toCome_of_one _ hevents hP
  obtain ⟨hdone, hio⟩ := formatted_completes s q F hnr
  refine ⟨F, _, hencode, hexec, hdone, hio, ?_, fun i hi hne => ?_, fun a ha => ?_⟩
  · have hfound := formatted_found s q F hnr (fun o => o = some (frameByte F (j % 4)) ∨ o = some b) (q.destBase + j)
      (hother _ _ fun _ => .inr rfl) (fun i _ hi => .inl (by rw [Nat.add_left_cancel hi])) (.inr ⟨j, hj, rfl⟩)
    exact hfound.imp dmemRead_of_find dmemRead_of_find
  · exact dmemRead_of_find (formatted_find_inside s q F hnr i hi (hother _ _ fun heq => by omega))
  · exact dmemRead_congr (formatted_find_outside s q F hnr a ha (hother _ _ fun heq => by omega))

/-! ## Another agent's read (R45) -/

/-- While a FORMAT runs, a read in its range gives the free value. -/
theorem otherRead_of_formatting (s : State) (f : InFlight) (q : FormatArgs) (a : Nat)
    (hf : s.block.running = some f) (hop : f.op = .format q) (ha : q.destBase ≤ a ∧ a < q.destBase + q.length) :
    s.otherRead a = Config.racingByte s.env.seen.length := by
  obtain ⟨hphase, -⟩ := (running_eq_some _ _).1 hf
  rw [State.otherRead, Block.formatting, hphase]
  simp [hop, ha]

theorem runActs_storeActs_seen_quiet (l : List Host.Cell) (st : Byte) (s : State) (f : InFlight)
    (hquiet : s.env.events = []) (hf : s.block.running = some f) :
    (runActs (storeActs l st) s).env.seen = s.env.seen := by
  obtain ⟨hphase, hpending⟩ := (running_eq_some _ _).1 hf
  rw [storeActs, runActs_stores l _ s f hquiet hphase hpending,
    runActs_respond _ { f with step := f.step + l.length } st [] (by exact hquiet)
      ((running_eq_some _ _).2 ⟨rfl, hpending⟩)]

/-- A read in the range that falls due before the response is made while the FORMAT runs. -/
theorem runActs_storeActs_seen (l : List Host.Cell) (st : Byte) (s : State) (f : InFlight) (q : FormatArgs) (d a : Nat)
    (hevents : s.env.events = [{ delay := d, act := .read a }]) (hd : d ≤ l.length) (hf : s.block.running = some f)
    (hop : f.op = .format q) (ha : q.destBase ≤ a ∧ a < q.destBase + q.length) :
    (runActs (storeActs l st) s).env.seen = s.env.seen ++ [(a, Config.racingByte s.env.seen.length)] := by
  have hnr : s.noReset := toCome_of_one (·.isReset = false) hevents rfl
  induction l generalizing s f d with
  | nil =>
    obtain rfl : d = 0 := Nat.le_zero.1 hd
    rw [storeActs_nil, runActs_noReset _ _ s f hnr hf, runActs_nil, deliver_one s _ hevents]
    simp [State.perform, State.outside, otherRead_of_formatting s f q a hf hop ha]
  | cons p l ih =>
    rw [storeActs_cons, runActs_noReset _ _ s f hnr hf]
    cases d with
    | zero =>
      rw [deliver_one s _ hevents,
        runActs_storeActs_seen_quiet l st _ { f with step := f.step + 1, pending := none } rfl rfl]
      simp [State.perform, State.outside, otherRead_of_formatting s f q a hf hop ha]
    | succ d =>
      rw [deliver_early s _ _ hevents (Nat.succ_ne_zero d)]
      have hevents' : (s.perform f (.store p.1 p.2)).env.events = [{ delay := d, act := .read a }] := by
        rw [perform_events, hevents]; rfl
      exact ih (s.perform f (.store p.1 p.2)) { f with step := f.step + 1, pending := none } d hevents'
        (Nat.le_of_succ_le_succ hd) rfl hop (toCome_of_one (·.isReset = false) hevents' rfl)

/-- Settles O38: the read falls due while the FORMAT runs, and a read writes no byte. -/
theorem racingReadIsFree : Obligations.RacingReadIsFree := by
  intro s q k j hidle hevents hj hk hhv hdv hvariant hrange
  obtain ⟨F, hencode, hexec⟩ := exec_format_of_passes s q hidle ⟨hhv, hdv, hvariant, hrange⟩
  have hnr : s.noReset := toCome_of_one (·.isReset = false) hevents rfl
  have hother : s.noOtherWrite := toCome_of_one (·.isWrite = false) hevents rfl
  obtain ⟨hdone, hio⟩ := formatted_completes s q F hnr
  refine ⟨F, _, hencode, hexec, hdone, hio, ?_, fun i hi => ?_, fun a ha => ?_⟩
  · exact runActs_storeActs_seen _ _ (s.accept (.format q)) _ q (k - 1) (q.destBase + j)
      (by rw [accept_env, hevents]; rfl) (by rw [length_formatCells]; omega) rfl rfl (by omega)
  · exact dmemRead_of_find (formatted_find_inside_alone s q F hnr hother i hi)
  · exact dmemRead_congr (formatted_find_outside_alone s q F hnr hother a ha)

end Sys2Proof.Machine
end

section
/-! PROOFS. Only FORMAT writes DMEM (O51): no rule with a byte write has a call, so an operation that waits for a call
writes no byte when it goes on. -/

namespace Sys2Proof.Machine

/-- A byte write stands in the rule of a FORMAT that passes its checks. -/
theorem eq_format_of_store_mem (i : Instr) (s : State) (acts : List Act) (a : Nat) (b : Byte)
    (h : actsOf i s = .ok acts) (hmem : .store a b ∈ acts) :
    ∃ q, i = .format q ∧ FormatPasses s.cfg s.session q := by
  cases i with
  | init q =>
    cases h
    rcases initActs_cases q with ⟨st, hraise⟩ | ⟨-, hacts⟩
    · simp [hraise, raise] at hmem
    · simp [hacts, primeList] at hmem
  | write q =>
    cases h
    rcases writeActs_cases s.cfg s.session q with ⟨st, hraise⟩ | ⟨-, F, hacts⟩
    · simp [hraise, raise] at hmem
    · simp [hacts] at hmem
  | format q =>
    rcases raise_or_passes_of_formatActs s.cfg s.session q acts h with ⟨st, rfl⟩ | hpasses
    · simp [raise] at hmem
    · exact ⟨q, rfl, hpasses⟩
  | _ => cases h; simp [rsvdActs, raise] at hmem

/-- No rule has both a call and a byte write (R96: FORMAT makes no transport call). -/
theorem store_notMem_of_callT_mem (i : Instr) (s : State) (acts : List Act) (r : CallReq) (a : Nat) (b : Byte)
    (h : actsOf i s = .ok acts) (hcall : .callT r ∈ acts) : .store a b ∉ acts := by
  intro hstore
  obtain ⟨q, rfl, hpasses⟩ := eq_format_of_store_mem i s acts a b h hstore
  obtain ⟨F, -, hacts⟩ := formatActs_of_passes s.cfg s.session q hpasses
  rw [actsOf, hacts] at h
  cases h
  exact callT_notMem_storeActs _ _ r hcall

theorem poll_running_op (s : State) (f g : InFlight) (c : TCall) (h : (s.poll f c).block.running = some g) :
    g.op = f.op := by
  rcases poll_cases s f c with ⟨st, -, hreturned⟩ | ⟨-, hpending⟩
  · rw [hreturned] at h; cases h; rfl
  · rw [hpending] at h; cases h

/-- A BUSY block that waits for its call writes no byte, while no other agent does. -/
theorem resume_dmem (s t : State) (f : InFlight) (hwaiting : s.waiting) (hother : s.noOtherWrite)
    (hbusy : s.block.phase = .busy f) (h : s.resume f = .next t) : t.dmem = s.dmem := by
  obtain ⟨u, rfl | ⟨c, -, rfl⟩, hcase⟩ := resume_next s t f h
  · rcases hcase with ⟨-, rfl⟩ | ⟨g, -, hrun, -⟩
    · rfl
    · rw [running_eq_none_of_waiting u hwaiting] at hrun
      cases hrun
  · rcases hcase with ⟨-, rfl⟩ | ⟨g, acts, hrun, hacts, rfl⟩
    · exact poll_dmem s f c
    · simp only [State.waiting, hbusy] at hwaiting
      obtain ⟨-, -, r, acts', -, hacts', hcall⟩ := hwaiting
      rw [poll_running_op s f g c hrun, actsOf_congr f.op s _ (poll_cfg s f c) (poll_session s f c), hacts'] at hacts
      cases hacts
      refine (runActs_dmem _ _ (toCome_poll (·.isWrite = false) s f c hother) fun a b hmem => ?_).trans
        (poll_dmem s f c)
      exact store_notMem_of_callT_mem f.op s acts r a b hacts' (List.mem_of_getElem? hcall) (List.mem_of_mem_drop hmem)

/-- Settles O51: a BUSY block writes no byte, so the one that changes DMEM stands in the rule of an item just taken. -/
theorem onlyFormatWritesDmem : Obligations.OnlyFormatWritesDmem := by
  intro s t hinv hnr hother hstep hchanged
  obtain ⟨hses, hblock⟩ := deliver_noReset s hnr
  have hdmem := deliver_dmem s hother
  have hother' : s.deliver.noOtherWrite := toCome_deliver (·.isWrite = false) s hother
  obtain ⟨-, ⟨f, hbusy, hresume⟩ | ⟨-, -, rfl⟩ | ⟨item, i, hidle, hfetch, hdecode, hexec⟩⟩ := step_next s t hstep
  · have hwaiting : s.deliver.waiting := waiting_congr hinv.block (deliver_cfg s) hses hblock
    exact absurd ((resume_dmem _ t f hwaiting hother' hbusy hresume).trans hdmem) hchanged
  · exact absurd hdmem hchanged
  · rcases exec_next i _ t hexec with ⟨-, acts, hacts, rfl⟩ | ⟨w, d, rfl⟩
    · have haccepted : (s.deliver.dropItem.accept i).noOtherWrite := tickEvents_all (·.isWrite = false) _ hother'
      by_cases hstores : ∃ a b, .store a b ∈ acts
      · obtain ⟨a, b, hmem⟩ := hstores
        obtain ⟨q, rfl, hhv, hdv, hvariant, -⟩ := eq_format_of_store_mem i _ acts a b hacts hmem
        rw [State.fetch, deliver_io] at hfetch
        rw [deliver_cfg] at hdecode
        rw [dropItem_session, hses] at hvariant
        exact ⟨hblock ▸ hidle, item, q, hfetch, hdecode, hhv, hdv, hvariant⟩
      · have hnone : ∀ a b, .store a b ∉ acts := fun a b hmem => hstores ⟨a, b, hmem⟩
        exact absurd ((runActs_dmem acts _ haccepted hnone).trans hdmem) hchanged
    · exact absurd hdmem hchanged

end Sys2Proof.Machine
end

section
/-! PROOFS. A format's frame in terms of F16 alone: F14 and F12 are F16 with data whose low bits, the pad bits, are 0. So
one set of facts about F16 says where the fields of every format are (R55 to R57) and what reading them back gives (R68). -/

namespace Sys2Proof.Machine

/-! ## Data whose pad bits are 0 -/

/-- A mask of `n` ones above `k` zeros clears the lower part. -/
theorem and_eq_append_zero {n k : Nat} (x m : BitVec (n + k)) (hhigh : m.extractLsb' k n = BitVec.allOnes n)
    (hlow : m.extractLsb' 0 k = 0#k) : x &&& m = x.extractLsb' k n ++ 0#k := by
  rw [← BitVec.extractLsb'_append_extractLsb' (x := x &&& m), BitVec.extractLsb'_and, BitVec.extractLsb'_and, hhigh, hlow,
    BitVec.and_allOnes, BitVec.and_zero]

theorem append_zero_eq_self_iff {n k : Nat} (x : BitVec (n + k)) :
    x.extractLsb' k n ++ 0#k = x ↔ x.extractLsb' 0 k = 0#k := by
  refine ⟨fun h => ?_, fun h => ?_⟩
  · rw [← h, BitVec.extractLsb'_append_eq_right]
  · rw [← h, BitVec.extractLsb'_append_extractLsb']

theorem and_dmask_w16 (x : BitVec 16) : x &&& dmask .w16 = x := BitVec.and_allOnes

theorem and_dmask_w14 (x : BitVec 16) : x &&& dmask .w14 = x.extractLsb' 2 14 ++ 0b00#2 :=
  and_eq_append_zero (n := 14) (k := 2) x (dmask .w14) (by decide) (by decide)

theorem and_dmask_w12 (x : BitVec 16) : x &&& dmask .w12 = x.extractLsb' 4 12 ++ 0b0000#4 :=
  and_eq_append_zero (n := 12) (k := 4) x (dmask .w12) (by decide) (by decide)

/-- The mask keeps exactly the data whose pad bits are 0. -/
theorem and_dmask_eq_self_iff (w : Width) (x : BitVec 16) :
    x &&& dmask w = x ↔ x.extractLsb' 0 (16 - dataBits w) = 0#(16 - dataBits w) := by
  cases w with
  | w16 => exact ⟨fun _ => BitVec.of_length_zero, fun _ => and_dmask_w16 x⟩
  | w14 => rw [and_dmask_w14]; exact append_zero_eq_self_iff (n := 14) (k := 2) x
  | w12 => rw [and_dmask_w12]; exact append_zero_eq_self_iff (n := 12) (k := 4) x

/-! ## The fields of an F16 frame -/

section
variable (rw : BitVec 1) (cmd addr mode : BitVec 4) (data : BitVec 16)

theorem extractLsb'_packF16_mode : (packF16 rw cmd addr data mode).extractLsb' 0 4 = mode :=
  BitVec.extractLsb'_append_eq_right

theorem extractLsb'_packF16_data (a n : Nat) (h : a + n ≤ 16) :
    (packF16 rw cmd addr data mode).extractLsb' (4 + a) n = data.extractLsb' a n :=
  (BitVec.extractLsb'_append_eq_of_le (Nat.le_add_right 4 a)).trans <| by
    rw [Nat.add_sub_cancel_left, BitVec.extractLsb'_append_eq_of_add_le h]

/-- Above mode and data, a field of an F16 frame is a field of the frame's upper 12 bits. -/
theorem extractLsb'_packF16_upper (a n : Nat) :
    (packF16 rw cmd addr data mode).extractLsb' (20 + a) n = (0b000#3 ++ rw ++ cmd ++ addr).extractLsb' a n :=
  (BitVec.extractLsb'_append_eq_of_le (by omega)).trans <|
    (BitVec.extractLsb'_append_eq_of_le (by omega)).trans <| by
      rw [show 20 + a - 4 - 16 = a by omega]

theorem extractLsb'_packF16_addr : (packF16 rw cmd addr data mode).extractLsb' 20 4 = addr :=
  (extractLsb'_packF16_upper rw cmd addr mode data 0 4).trans BitVec.extractLsb'_append_eq_right

theorem extractLsb'_packF16_cmd : (packF16 rw cmd addr data mode).extractLsb' 24 4 = cmd :=
  (extractLsb'_packF16_upper rw cmd addr mode data 4 4).trans <|
    (BitVec.extractLsb'_append_eq_of_le (by decide)).trans BitVec.extractLsb'_append_eq_right

theorem extractLsb'_packF16_rw : (packF16 rw cmd addr data mode).extractLsb' 28 1 = rw :=
  (extractLsb'_packF16_upper rw cmd addr mode data 8 1).trans <|
    (BitVec.extractLsb'_append_eq_of_le (by decide)).trans <|
    (BitVec.extractLsb'_append_eq_of_le (by decide)).trans BitVec.extractLsb'_append_eq_right

/-- R58: the don't-care bits of a frame that is made are 0. -/
theorem extractLsb'_packF16_dontCare : (packF16 rw cmd addr data mode).extractLsb' 29 3 = 0b000#3 :=
  (extractLsb'_packF16_upper rw cmd addr mode data 9 3).trans <|
    (BitVec.extractLsb'_append_eq_of_le (by decide)).trans <|
    (BitVec.extractLsb'_append_eq_of_le (by decide)).trans BitVec.extractLsb'_append_eq_left

/-- R71 to R75: the bytes of an F16 frame. -/
theorem frameBytes_packF16 :
    frameBytes (packF16 rw cmd addr data mode) =
      [0b000#3 ++ rw ++ cmd, addr ++ data.extractLsb' 12 4, data.extractLsb' 4 8, data.extractLsb' 0 4 ++ mode] := by
  have hdata : data.extractLsb' 12 4 ++ data.extractLsb' 4 8 ++ data.extractLsb' 0 4 = data := by
    have hupper : data.extractLsb' 12 4 ++ data.extractLsb' 4 8 = data.extractLsb' 4 12 :=
      BitVec.extractLsb'_append_extractLsb'_eq_extractLsb' rfl
    rw [hupper]
    exact BitVec.extractLsb'_append_extractLsb' (w := 12) (len := 4)
  have hframe : packF16 rw cmd addr data mode =
      frameOfBytes (0b000#3 ++ rw ++ cmd) (addr ++ data.extractLsb' 12 4) (data.extractLsb' 4 8)
        (data.extractLsb' 0 4 ++ mode) := by
    conv_lhs => rw [← hdata]
    simp only [packF16, frameOfBytes, BitVec.append_assoc, BitVec.cast_eq]
  rw [hframe, frameBytes_frameOfBytes]

end

/-- A frame whose don't-care bits are 0 is the F16 frame of its own fields. -/
theorem packF16_extractLsb' (F : Frame) (h : F.extractLsb' 29 3 = 0b000#3) :
    packF16 (F.extractLsb' 28 1) (F.extractLsb' 24 4) (F.extractLsb' 20 4) (F.extractLsb' 4 16) (F.extractLsb' 0 4) =
      F := by
  have hrw : 0b000#3 ++ F.extractLsb' 28 1 = F.extractLsb' 28 4 :=
    h ▸ BitVec.extractLsb'_append_extractLsb'_eq_extractLsb' rfl
  have hcmd : F.extractLsb' 28 4 ++ F.extractLsb' 24 4 = F.extractLsb' 24 8 :=
    BitVec.extractLsb'_append_extractLsb'_eq_extractLsb' rfl
  have haddr : F.extractLsb' 24 8 ++ F.extractLsb' 20 4 = F.extractLsb' 20 12 :=
    BitVec.extractLsb'_append_extractLsb'_eq_extractLsb' rfl
  have hdata : F.extractLsb' 20 12 ++ F.extractLsb' 4 16 = F.extractLsb' 4 28 :=
    BitVec.extractLsb'_append_extractLsb'_eq_extractLsb' rfl
  rw [packF16, hrw, hcmd, haddr, hdata]
  exact BitVec.extractLsb'_append_extractLsb' (w := 28) (len := 4)

/-! ## The other formats -/

theorem packF14_eq_packF16 (rw : BitVec 1) (cmd addr mode : BitVec 4) (data : BitVec 14) :
    packF14 rw cmd addr data mode = packF16 rw cmd addr (data ++ 0b00#2) mode := by
  simp only [packF14, packF16, BitVec.append_assoc, BitVec.cast_eq]

theorem packF12_eq_packF16 (rw : BitVec 1) (cmd addr mode : BitVec 4) (data : BitVec 12) :
    packF12 rw cmd addr data mode = packF16 rw cmd addr (data ++ 0b0000#4) mode := by
  simp only [packF12, packF16, BitVec.append_assoc, BitVec.cast_eq]

/-- R59, R60: the encoder's frame of a port's descriptor is F16 with the masked data. -/
theorem encodeFrame_descOperand (w : Width) (d : Desc) :
    encodeFrame w (descOperand d) = packF16 d.rw d.cmd d.addr (d.data &&& dmask w) d.mode := by
  simp only [encodeFrame, descOperand, BitVec.ofNat_toNat, BitVec.setWidth_eq]

/-- R60: the pad bits of a format in an F16 frame are those low bits of the data that the format's mask clears. -/
theorem padIsZero_packF16 (w : Width) (rw : BitVec 1) (cmd addr mode : BitVec 4) (data : BitVec 16) :
    padIsZero w (packF16 rw cmd addr data mode) = true ↔ data &&& dmask w = data := by
  have hpad : ∀ n ≤ 16, (packF16 rw cmd addr data mode).extractLsb' 4 n = data.extractLsb' 0 n := fun n hn =>
    extractLsb'_packF16_data rw cmd addr mode data 0 n (by omega)
  rw [and_dmask_eq_self_iff]
  cases w with
  | w16 => exact ⟨fun _ => BitVec.of_length_zero, fun _ => rfl⟩
  | w14 => exact beq_iff_eq.trans (by rw [hpad 2 (by decide)]; rfl)
  | w12 => exact beq_iff_eq.trans (by rw [hpad 4 (by decide)]; rfl)

/-- R68: the fields read from an F16 frame in any format are those that the descriptor has in that format. -/
theorem frameFields_packF16 (w : Width) (d : Desc) :
    frameFields w (packF16 d.rw d.cmd d.addr d.data d.mode) = frameInstr w d := by
  have hdata := extractLsb'_packF16_data d.rw d.cmd d.addr d.mode d.data
  cases w <;>
    simp only [frameFields, frameInstr, extractLsb'_packF16_rw, extractLsb'_packF16_cmd, extractLsb'_packF16_addr,
      extractLsb'_packF16_mode, hdata 0 16 (by decide), hdata 2 14 (by decide), hdata 4 12 (by decide),
      BitVec.extractLsb'_eq_self]

end Sys2Proof.Machine
end

section
/-! PROOFS. Reading a frame back (O4, O5, O2), the FRAME rows (O15) and the words written out (O6): the encoder's frames are
exactly the frames that are read, and the instruction that is read is the encoded descriptor's. -/

namespace Sys2Proof.Machine

/-! ## What is read -/

/-- Settles O4. -/
theorem frameIsReadOnlyWhenWellFormed : Obligations.FrameIsReadOnlyWhenWellFormed := by
  have fields : ∀ (w : Width) (F : Frame) (i : Instr), decodeFrame w F = .ok i → i = frameFields w F := fun w F i h =>
    ((decodeFrame_eq_ok w F i).1 h).2.2.symm
  refine ⟨fun w F => ?_, fields .w16, fields .w14, fields .w12⟩
  simp only [decodeFrame_eq_ok, exists_and_left, exists_eq', and_true]
  cases w <;> simp [padIsZero]

/-! ## Encoded frames -/

/-- A format's instruction does not hold the bits that the format's mask clears. -/
theorem frameInstr_and_dmask (w : Width) (d : Desc) :
    frameInstr w { d with data := d.data &&& dmask w } = frameInstr w d := by
  cases w with
  | w16 => simp only [frameInstr, and_dmask_w16]
  | w14 => simp only [frameInstr, and_dmask_w14, BitVec.extractLsb'_append_eq_left]
  | w12 => simp only [frameInstr, and_dmask_w12, BitVec.extractLsb'_append_eq_left]

/-- Settles O5: the mask is idempotent, so the pad bits of the encoder's frame are 0. -/
theorem encodedDescriptorReadsBack : Obligations.EncodedDescriptorReadsBack := by
  intro w d
  have hmask : d.data &&& dmask w &&& dmask w = d.data &&& dmask w := by rw [BitVec.and_assoc, BitVec.and_self]
  rw [encodeFrame_descOperand, decodeFrame_eq_ok]
  exact ⟨extractLsb'_packF16_dontCare .., (padIsZero_packF16 ..).2 hmask,
    (frameFields_packF16 w { d with data := d.data &&& dmask w }).trans (frameInstr_and_dmask w d)⟩

/-- R70: the input item of a format's instruction is the encoder's frame. -/
theorem encode_frameInstr (c : Config) (w : Width) (d : Desc) :
    encode c (frameInstr w d) = .frame w (frameBytes (encodeFrame w (descOperand d))) := by
  rw [encodeFrame_descOperand]
  cases w with
  | w16 => rw [and_dmask_w16]; rfl
  | w14 => rw [and_dmask_w14, ← packF14_eq_packF16]; rfl
  | w12 => rw [and_dmask_w12, ← packF12_eq_packF16]; rfl

/-- A frame that is read is the encoder's frame of a descriptor, and is read as that descriptor's instruction. -/
theorem exists_desc_of_decodeFrame {w : Width} {F : Frame} {i : Instr} (h : decodeFrame w F = .ok i) :
    ∃ d, i = frameInstr w d ∧ F = encodeFrame w (descOperand d) := by
  obtain ⟨hdontCare, hpad, rfl⟩ := (decodeFrame_eq_ok w F i).1 h
  obtain ⟨d, rfl⟩ : ∃ d : Desc, F = packF16 d.rw d.cmd d.addr d.data d.mode :=
    ⟨{ rw := _, cmd := _, addr := _, data := _, mode := _ }, (packF16_extractLsb' F hdontCare).symm⟩
  refine ⟨d, frameFields_packF16 w d, ?_⟩
  rw [encodeFrame_descOperand, (padIsZero_packF16 ..).1 hpad]

/-- Settles O2. -/
theorem encodeOfDecodedFrame : Obligations.EncodeOfDecodedFrame := by
  intro c w b0 b1 b2 b3 i h
  obtain ⟨d, rfl, hframe⟩ := exists_desc_of_decodeFrame (F := frameOfBytes b0 b1 b2 b3) h
  rw [encode_frameInstr, ← hframe, frameBytes_frameOfBytes]

/-! ## The FRAME rows -/

/-- R71 to R74: the bytes of the encoder's frame. -/
theorem frameBytes_encodeFrame (w : Width) (d : Desc) :
    frameBytes (encodeFrame w (descOperand d)) =
      [0b000#3 ++ d.rw ++ d.cmd, d.addr ++ (d.data &&& dmask w).extractLsb' 12 4, (d.data &&& dmask w).extractLsb' 4 8,
        (d.data &&& dmask w).extractLsb' 0 4 ++ d.mode] := by
  rw [encodeFrame_descOperand, frameBytes_packF16]

/-- R56: the F14 table's data parts, from DATA with its two pad bits. -/
theorem frameBytes_encodeFrame_w14 (rw : BitVec 1) (cmd addr mode : BitVec 4) (data : BitVec 14) :
    frameBytes (encodeFrame .w14 (descOperand { rw := rw, cmd := cmd, addr := addr, data := data ++ 0#2, mode := mode })) =
      [0b000#3 ++ rw ++ cmd, addr ++ data.extractLsb' 10 4, data.extractLsb' 2 8, data.extractLsb' 0 2 ++ 0b00#2 ++ mode] := by
  have hlow : (data ++ 0#2).extractLsb' 0 4 = data.extractLsb' 0 2 ++ 0b00#2 := BitVec.extractLsb'_append_eq_ite
  rw [frameBytes_encodeFrame, and_dmask_w14, BitVec.extractLsb'_append_eq_left, hlow,
    BitVec.extractLsb'_append_eq_of_le (by decide), BitVec.extractLsb'_append_eq_of_le (by decide)]

/-- R57: the F12 table's data parts, from DATA with its four pad bits. -/
theorem frameBytes_encodeFrame_w12 (rw : BitVec 1) (cmd addr mode : BitVec 4) (data : BitVec 12) :
    frameBytes (encodeFrame .w12 (descOperand { rw := rw, cmd := cmd, addr := addr, data := data ++ 0#4, mode := mode })) =
      [0b000#3 ++ rw ++ cmd, addr ++ data.extractLsb' 8 4, data.extractLsb' 0 8, 0b0000#4 ++ mode] := by
  rw [frameBytes_encodeFrame, and_dmask_w12, BitVec.extractLsb'_append_eq_left, BitVec.extractLsb'_append_eq_right,
    BitVec.extractLsb'_append_eq_of_le (by decide), BitVec.extractLsb'_append_eq_of_le (by decide)]

/-- Settles O15: each row appends the encoder's bytes, and they are those of its format's table. -/
theorem frameRowsReturnTheirBytes : Obligations.FrameRowsReturnTheirBytes := by
  intro s rw cmd addr mode
  refine ⟨fun data => ?_, fun data => ?_, fun data => ?_⟩
  · simp only [exec, execFrameF16, State.emitFrame, frameBytes_encodeFrame, and_dmask_w16]
  · simp only [exec, execFrameF14, State.emitFrame, frameBytes_encodeFrame_w14]
  · simp only [exec, execFrameF12, State.emitFrame, frameBytes_encodeFrame_w12]

/-! ## Words -/

/-- Settles O6: each word is read by evaluating the decoder. -/
theorem wordsOfTheSpecDecode : Obligations.WordsOfTheSpecDecode := by
  exact ⟨by decide, by decide, by decide, by decide, by decide, by decide, by decide⟩

end Sys2Proof.Machine
end

section
/-! PROOFS. Requests: the fields that an operation does not use do not reach its instruction (O3), and an encoded request or
frame decodes to its instruction (O1). -/

namespace Sys2Proof.Machine

/-! ## A request at the input -/

/-- The bytes of a record within the port widths decode to the instruction it selects. -/
theorem decode_request (c : Config) (q : Request) (h : q.wf c) : decode c (.request (q.toBytes c)) = .ok q.select := by
  simp only [decode, ofBytes_toBytes c q h]

/-- R82: a block that can take a request runs the instruction of the record at its input, and the record is gone. -/
theorem step_request (s : State) (rest : List PortItem) (q : Request) (hready : s.ready) (hwf : q.wf s.cfg) :
    step { s with io := { s.io with port := .request (q.toBytes s.cfg) :: rest } } =
      exec q.select { s with io := { s.io with port := rest } } := by
  refine (step_ready { s with io := { s.io with port := .request (q.toBytes s.cfg) :: rest } } hready).trans ?_
  simp only [State.fetch, List.head?_cons, decode_request s.cfg q hwf]
  rfl

/-! ## Fields that an operation does not use -/

theorem select_init {q : Request} (h : q.op = 0b00#2) :
    q.select = .init
      { hv := q.hv, variant := q.variant, tp := q.tp, capShift := q.capShift, capSel := q.capSel, capLdac := q.capLdac,
        capClr := q.capClr, ctx := q.ctx } := by
  simp only [Request.select, h]

theorem select_write {q : Request} (h : q.op = 0b01#2) : q.select = .write { hv := q.hv, desc := q.desc } := by
  simp only [Request.select, h]

theorem select_format {q : Request} (h : q.op = 0b10#2) :
    q.select = .format { hv := q.hv, dv := q.dv, destBase := q.destBase, length := q.length, desc := q.desc } := by
  simp only [Request.select, h]

theorem select_rsvd {q : Request} (h : q.op = 0b11#2) : q.select = .rsvd := by
  simp only [Request.select, h]
  rfl

/-- The four op codes of R52. -/
theorem op_cases (op : BitVec 2) : op = 0b00#2 ∨ op = 0b01#2 ∨ op = 0b10#2 ∨ op = 0b11#2 := by
  revert op
  decide

/-- R53: records that agree on the fields their operation uses select the same instruction. -/
theorem select_eq_of_agree {q q' : Request} (h : q.agree q') : q.select = q'.select := by
  obtain ⟨hop, hinit, hwrite, hformat⟩ := h
  rcases op_cases q.op with h0 | h1 | h2 | h3
  · obtain ⟨hhv, hvariant, htp, hshift, hsel, hldac, hclr, hctx⟩ := hinit h0
    rw [select_init h0, select_init (hop ▸ h0), hhv, hvariant, htp, hshift, hsel, hldac, hclr, hctx]
  · obtain ⟨hhv, hdesc⟩ := hwrite h1
    rw [select_write h1, select_write (hop ▸ h1), hhv, hdesc]
  · obtain ⟨hhv, hdv, hdest, hlength, hdesc⟩ := hformat h2
    rw [select_format h2, select_format (hop ▸ h2), hhv, hdv, hdest, hlength, hdesc]
  · rw [select_rsvd h3, select_rsvd (hop ▸ h3)]

/-- Settles O3: the step sees of a record only the instruction it selects. -/
theorem unusedRequestFieldsAreIgnored : Obligations.UnusedRequestFieldsAreIgnored := by
  intro s rest q q' hready hwf hwf' hagree
  rw [step_request s rest q hready hwf, step_request s rest q' hready hwf', select_eq_of_agree hagree]

/-! ## Decoding what was encoded -/

/-- Every instruction that is no request is a format's instruction of a descriptor, with pad bits 0 below its data. -/
theorem exists_frameInstr (i : Instr) (h : isRequest i = false) : ∃ w d, i = frameInstr w d := by
  cases i with
  | init q => cases h
  | write q => cases h
  | format q => cases h
  | rsvd => cases h
  | frameF16 rw cmd addr data mode =>
    exact ⟨.w16, { rw := rw, cmd := cmd, addr := addr, data := data, mode := mode }, rfl⟩
  | frameF14 rw cmd addr data mode =>
    refine ⟨.w14, { rw := rw, cmd := cmd, addr := addr, data := data ++ 0b00#2, mode := mode }, ?_⟩
    simp only [frameInstr, BitVec.extractLsb'_append_eq_left]
  | frameF12 rw cmd addr data mode =>
    refine ⟨.w12, { rw := rw, cmd := cmd, addr := addr, data := data ++ 0b0000#4, mode := mode }, ?_⟩
    simp only [frameInstr, BitVec.extractLsb'_append_eq_left]

/-- The bytes of a frame decode as that frame does. -/
theorem decode_frameBytes (c : Config) (w : Width) (F : Frame) : decode c (.frame w (frameBytes F)) = decodeFrame w F :=
  congrArg (decodeFrame w) (frameOfBytes_frameByte F)

/-- An encoded request is the bytes of a record that fits the ports and selects it. -/
theorem exists_encode_eq_request (c : Config) (i : Instr) (hwf : i.wf c = true) (h : isRequest i = true) :
    ∃ q : Request, encode c i = .request (q.toBytes c) ∧ q.wf c ∧ q.select = i := by
  have hzero : ∀ w, 0 < 2 ^ w := Nat.two_pow_pos
  cases i with
  | init q =>
    obtain ⟨hvariant, hctx⟩ := of_decide_eq_true hwf
    exact ⟨_, rfl, ⟨hvariant, hctx, hzero _, hzero _⟩, rfl⟩
  | write q => exact ⟨_, rfl, ⟨hzero _, hzero _, hzero _, hzero _⟩, rfl⟩
  | format q =>
    obtain ⟨hdest, hlength⟩ := of_decide_eq_true hwf
    exact ⟨_, rfl, ⟨hzero _, hzero _, hdest, hlength⟩, rfl⟩
  | rsvd => exact ⟨_, rfl, ⟨hzero _, hzero _, hzero _, hzero _⟩, rfl⟩
  | frameF16 rw cmd addr data mode => cases h
  | frameF14 rw cmd addr data mode => cases h
  | frameF12 rw cmd addr data mode => cases h

/-- Settles O1: a request goes through its record, a frame through the encoder (O5). -/
theorem decodeOfEncodedInstruction : Obligations.DecodeOfEncodedInstruction := by
  intro c i hwf
  by_cases hrequest : isRequest i = true
  · obtain ⟨q, hencode, hfits, rfl⟩ := exists_encode_eq_request c i hwf hrequest
    rw [hencode, decode_request c q hfits]
  · obtain ⟨w, d, rfl⟩ := exists_frameInstr i (Bool.eq_false_iff.2 hrequest)
    rw [encode_frameInstr, decode_frameBytes, encodedDescriptorReadsBack]

end Sys2Proof.Machine
end

section
/-! PROOFS. The frame encoder on descriptors of natural numbers of any size: the variant table (O7), the masks of its fields
(O13), its formula (O8) and byte rules (O9), and which frame bits a field reaches (O14). A field's mask is `BitVec.ofNat` at
the field's width, so each statement is one about the fields of an F16 frame. -/

namespace Sys2Proof.Machine

/-! ## The variant table -/

/-- R70: ENCODE is the variant table, and then the encoder at the tag's width. -/
theorem encodeDesc_eq_map (c : Config) (v : Nat) (d : RawDesc) :
    encodeDesc c v d = (widthOf c v).map (encodeFrame · d) := by
  unfold encodeDesc
  cases widthOf c v <;> rfl

theorem encodeDesc_of_widthOf {c : Config} {v : Nat} {w : Width} (h : widthOf c v = some w) (d : RawDesc) :
    encodeDesc c v d = some (encodeFrame w d) := by
  rw [encodeDesc_eq_map, h, Option.map_some]

/-- R69: a tag has no width exactly when it is 3 or more, whatever the tag map. -/
theorem widthOf_eq_none_iff (c : Config) (v : Nat) : widthOf c v = none ↔ 2 < v := by
  rw [← encodeDesc_eq_none_iff c v { rw := 0, cmd := 0, addr := 0, data := 0, mode := 0 }, encodeDesc_eq_map,
    Option.map_eq_none_iff]

/-- Settles O7. -/
theorem variantTable : Obligations.VariantTable := by
  intro c hc
  refine ⟨?_, ?_, ?_, fun v hv => (widthOf_eq_none_iff c v).2 hv, by decide, by decide, by decide⟩
  all_goals simp only [widthOf, hc, TagMap.default]

/-! ## Masks -/

/-- R78: the low `k` bits of a number, as the pseudocode's mask of `k` ones takes them. -/
theorem toNat_ofNat_eq_and (k n : Nat) : (BitVec.ofNat k n).toNat = n &&& (2 ^ k - 1) := by
  rw [BitVec.toNat_ofNat, Nat.and_two_pow_sub_one_eq_mod]

theorem ofNat_and_mask (k n : Nat) : BitVec.ofNat k (n &&& (2 ^ k - 1)) = BitVec.ofNat k n := by
  rw [← toNat_ofNat_eq_and, BitVec.ofNat_toNat, BitVec.setWidth_eq]

/-- At a port, a field's mask is the identity. -/
theorem toNat_and_mask {k : Nat} (x : BitVec k) : x.toNat &&& (2 ^ k - 1) = x.toNat :=
  Nat.and_two_pow_sub_one_of_lt_two_pow x.isLt

theorem encodeFrame_mask (w : Width) (d : RawDesc) :
    encodeFrame w
        { rw := d.rw &&& 0x1, cmd := d.cmd &&& 0xF, addr := d.addr &&& 0xF, data := d.data &&& 0xFFFF,
          mode := d.mode &&& 0xF } =
      encodeFrame w d := by
  have hrw := ofNat_and_mask 1 d.rw
  have hcmd := ofNat_and_mask 4 d.cmd
  have haddr := ofNat_and_mask 4 d.addr
  have hdata := ofNat_and_mask 16 d.data
  have hmode := ofNat_and_mask 4 d.mode
  simp only [Nat.reducePow, Nat.reduceSub] at hrw hcmd haddr hdata hmode
  simp only [encodeFrame, hrw, hcmd, haddr, hdata, hmode]

/-- Settles O13. -/
theorem encoderMasksEveryField : Obligations.EncoderMasksEveryField := by
  refine ⟨fun c v d => ⟨?_, fun hv => ?_⟩, fun p => ?_⟩
  · simp only [encodeDesc_eq_map, encodeFrame_mask]
  · exact mt (encodeDesc_eq_none_iff c v d).1 (Nat.not_lt.2 hv)
  · exact ⟨toNat_and_mask p.rw, toNat_and_mask p.cmd, toNat_and_mask p.addr, toNat_and_mask p.data,
      toNat_and_mask p.mode⟩

/-! ## The formula -/

/-- R54: an F16 frame as a number. -/
theorem toNat_packF16 (rw : BitVec 1) (cmd addr mode : BitVec 4) (data : BitVec 16) :
    (packF16 rw cmd addr data mode).toNat =
      rw.toNat <<< 28 ||| cmd.toNat <<< 24 ||| addr.toNat <<< 20 ||| data.toNat <<< 4 ||| mode.toNat := by
  rw [packF16, BitVec.toNat_append, BitVec.toNat_append, BitVec.toNat_append, BitVec.toNat_append, BitVec.toNat_append]
  simp only [BitVec.toNat_ofNat, Nat.zero_mod, Nat.zero_shiftLeft, Nat.zero_or, Nat.shiftLeft_or_distrib,
    ← Nat.shiftLeft_add, Nat.reduceAdd]

/-- R70: the pseudocode's formula for F. -/
theorem toNat_encodeFrame (w : Width) (d : RawDesc) :
    (encodeFrame w d).toNat =
      ((d.rw &&& 0x1) <<< 28) ||| ((d.cmd &&& 0xF) <<< 24) ||| ((d.addr &&& 0xF) <<< 20) |||
        (((d.data &&& 0xFFFF) &&& (dmask w).toNat) <<< 4) ||| (d.mode &&& 0xF) := by
  simp only [encodeFrame, toNat_packF16, BitVec.toNat_and, toNat_ofNat_eq_and, Nat.reducePow, Nat.reduceSub]

/-- Settles O8. -/
theorem encoderComputesTheMaskedShiftFormula : Obligations.EncoderComputesTheMaskedShiftFormula := by
  intro c v d
  refine ⟨(encodeDesc_eq_none_iff c v d).2, fun hv => ?_, fun hc => ?_⟩
  · obtain ⟨w, hw⟩ := Option.ne_none_iff_exists'.1 (mt (widthOf_eq_none_iff c v).1 (Nat.not_lt.2 hv))
    exact ⟨w, encodeFrame w d, hw, encodeDesc_of_widthOf hw d, toNat_encodeFrame w d, rfl⟩
  · obtain ⟨hw, -⟩ := variantTable c hc
    rw [encodeDesc_of_widthOf hw]
    decide

/-! ## The byte rules -/

/-- R71 to R74: the bytes of the encoder's frame, for a descriptor of natural numbers. -/
theorem frameByte_encodeFrame (w : Width) (d : RawDesc) :
    frameByte (encodeFrame w d) 0 = 0b000#3 ++ BitVec.ofNat 1 d.rw ++ BitVec.ofNat 4 d.cmd ∧
      frameByte (encodeFrame w d) 1 = BitVec.ofNat 4 d.addr ++ (BitVec.ofNat 16 d.data &&& dmask w).extractLsb' 12 4 ∧
      frameByte (encodeFrame w d) 2 = (BitVec.ofNat 16 d.data &&& dmask w).extractLsb' 4 8 ∧
      frameByte (encodeFrame w d) 3 =
        (BitVec.ofNat 16 d.data &&& dmask w).extractLsb' 0 4 ++ BitVec.ofNat 4 d.mode := by
  simpa only [encodeFrame, frameBytes, List.cons.injEq, and_true] using
    frameBytes_packF16 (BitVec.ofNat 1 d.rw) (BitVec.ofNat 4 d.cmd) (BitVec.ofNat 4 d.addr) (BitVec.ofNat 4 d.mode)
      (BitVec.ofNat 16 d.data &&& dmask w)

/-- Settles O9. -/
theorem frameBytesFollowTheByteRules : Obligations.FrameBytesFollowTheByteRules := by
  intro w d
  obtain ⟨hbyte0, hbyte1, hbyte2, hbyte3⟩ := frameByte_encodeFrame w d
  refine ⟨?_, ?_, hbyte1, hbyte2, hbyte3⟩
  · rw [hbyte0]
    simp only [BitVec.toNat_append, toNat_ofNat_eq_and, Nat.zero_and, Nat.zero_shiftLeft, Nat.zero_or, Nat.reducePow,
      Nat.reduceSub]
  · rw [hbyte0, BitVec.extractLsb'_append_eq_of_le (by decide)]
    exact BitVec.extractLsb'_append_eq_left

/-! ## The fields -/

/-- R59: the data field of the encoder's frame is the masked DATA. -/
theorem extractLsb'_encodeFrame_data (w : Width) (d : RawDesc) :
    (encodeFrame w d).extractLsb' 4 16 = BitVec.ofNat 16 d.data &&& dmask w := by
  rw [encodeFrame, extractLsb'_packF16_data _ _ _ _ _ 0 16 (by decide), BitVec.extractLsb'_eq_self]

/-- Settles O14: each frame bit lies in one field of the F16 frame, and that field is made of one field of the
descriptor. -/
theorem eachFieldHasItsOwnFrameBits : Obligations.EachFieldHasItsOwnFrameBits := by
  intro w d d'
  obtain ⟨hbyte0, hbyte1, hbyte2, hbyte3⟩ := frameByte_encodeFrame w d
  obtain ⟨hbyte0', hbyte1', hbyte2', hbyte3'⟩ := frameByte_encodeFrame w d'
  obtain ⟨-, -, -, hbyte3w12⟩ := frameByte_encodeFrame .w12 d
  refine ⟨fun hrw hcmd haddr => ⟨?_, ?_⟩, fun hd => ⟨?_, ?_, ?_⟩, fun hmode => ?_, ?_, fun hrw => ?_,
    fun hcmd => ?_, fun haddr => ?_, fun hd => ?_, ?_⟩
  · rw [hbyte0, hbyte0', hrw, hcmd]
  · rw [hbyte1, hbyte1', BitVec.extractLsb'_append_eq_left, BitVec.extractLsb'_append_eq_left, haddr]
  · rw [hbyte2, hbyte2', hd]
  · rw [hbyte1, hbyte1', BitVec.extractLsb'_append_eq_right, BitVec.extractLsb'_append_eq_right, hd]
  · rw [hbyte3, hbyte3', BitVec.extractLsb'_append_eq_left, BitVec.extractLsb'_append_eq_left, hd]
  · rw [hbyte3, hbyte3', BitVec.extractLsb'_append_eq_right, BitVec.extractLsb'_append_eq_right, hmode]
  · rw [hbyte3w12, BitVec.extractLsb'_append_eq_left, and_dmask_w12, BitVec.extractLsb'_append_eq_right]
  · simp only [encodeFrame, extractLsb'_packF16_rw, hrw]
  · simp only [encodeFrame, extractLsb'_packF16_cmd, hcmd]
  · simp only [encodeFrame, extractLsb'_packF16_addr, haddr]
  · rw [extractLsb'_encodeFrame_data, extractLsb'_encodeFrame_data, hd]
  · exact extractLsb'_packF16_dontCare ..

end Sys2Proof.Machine
end

section
/-! PROOFS. What each variant keeps of DATA (O10, O11, O12): all 16 bits, the upper 14, or the upper 12. -/

namespace Sys2Proof.Machine

/-! ## The data that give one frame -/

/-- The upper part of a vector is its quotient by the weight of the part's lowest bit. -/
theorem toNat_extractLsb'_upper {n k : Nat} (x : BitVec (n + k)) : (x.extractLsb' k n).toNat = x.toNat / 2 ^ k := by
  have hlt : x.toNat / 2 ^ k < 2 ^ n := Nat.div_lt_of_lt_mul (by rw [Nat.mul_comm, ← Nat.pow_add]; exact x.isLt)
  rw [BitVec.extractLsb'_toNat, Nat.shiftRight_eq_div_pow, Nat.mod_eq_of_lt hlt]

theorem append_zero_eq_append_zero_iff {n k : Nat} (x y : BitVec (n + k)) :
    x.extractLsb' k n ++ 0#k = y.extractLsb' k n ++ 0#k ↔ x.toNat / 2 ^ k = y.toNat / 2 ^ k := by
  rw [BitVec.append_left_inj, ← BitVec.toNat_inj, toNat_extractLsb'_upper, toNat_extractLsb'_upper]

/-- R69: two DATA values are the same under a width's mask exactly when they agree above the pad bits. -/
theorem and_dmask_eq_and_dmask_iff (w : Width) (x y : BitVec 16) :
    x &&& dmask w = y &&& dmask w ↔ x.toNat / 2 ^ (16 - dataBits w) = y.toNat / 2 ^ (16 - dataBits w) := by
  cases w with
  | w16 => simp only [and_dmask_w16, dataBits, Nat.sub_self, pow_zero, Nat.div_one, BitVec.toNat_inj]
  | w14 => rw [and_dmask_w14, and_dmask_w14]; exact append_zero_eq_append_zero_iff (n := 14) (k := 2) x y
  | w12 => rw [and_dmask_w12, and_dmask_w12]; exact append_zero_eq_append_zero_iff (n := 12) (k := 4) x y

theorem encodeFrame_data_eq_iff (w : Width) (d : RawDesc) (data' : Nat) :
    encodeFrame w { d with data := data' } = encodeFrame w d ↔
      BitVec.ofNat 16 data' &&& dmask w = BitVec.ofNat 16 d.data &&& dmask w := by
  refine ⟨fun h => ?_, fun h => ?_⟩
  · simpa only [extractLsb'_encodeFrame_data] using congrArg (BitVec.extractLsb' 4 16) h
  · simp only [encodeFrame, h]

/-- R75 to R77: at a tag of width `w`, two DATA values give one frame exactly when they agree above the pad bits. -/
theorem encodeDesc_data_eq_iff {c : Config} {v : Nat} {w : Width} (h : widthOf c v = some w) (d : RawDesc)
    (data' : Nat) :
    encodeDesc c v { d with data := data' } = encodeDesc c v d ↔
      data' % 2 ^ 16 / 2 ^ (16 - dataBits w) = d.data % 2 ^ 16 / 2 ^ (16 - dataBits w) := by
  rw [encodeDesc_of_widthOf h, encodeDesc_of_widthOf h, Option.some_inj, encodeFrame_data_eq_iff,
    and_dmask_eq_and_dmask_iff, BitVec.toNat_ofNat, BitVec.toNat_ofNat]

/-! ## The three variants -/

/-- Settles O10. -/
theorem sixteenBitDataIsLossless : Obligations.SixteenBitDataIsLossless := by
  intro c d hc
  obtain ⟨hw, -⟩ := variantTable c hc
  obtain ⟨-, hbyte1, hbyte2, hbyte3⟩ := frameByte_encodeFrame .w16 d
  rw [and_dmask_w16] at hbyte1 hbyte2 hbyte3
  refine ⟨⟨encodeFrame .w16 d, encodeDesc_of_widthOf hw d, ?_, hbyte2, hbyte3⟩, fun data' => ?_, ?_⟩
  · rw [hbyte1, BitVec.extractLsb'_append_eq_right]
  · simpa only [dataBits, Nat.sub_self, pow_zero, Nat.div_one] using encodeDesc_data_eq_iff hw d data'
  · rw [encodeDesc_of_widthOf hw]
    decide

/-- The low nibble of DATA keeps its upper two bits under the mask of 14 data bits. -/
theorem extractLsb'_and_dmask_w14 (x : BitVec 16) :
    (x &&& dmask .w14).extractLsb' 0 4 = x.extractLsb' 2 2 ++ 0b00#2 := by
  rw [BitVec.extractLsb'_and]
  exact (and_eq_append_zero (n := 2) (k := 2) (x.extractLsb' 0 4) ((dmask .w14).extractLsb' 0 4) (by decide)
    (by decide)).trans (by rw [BitVec.extractLsb'_extractLsb'_of_le (by decide)])

/-- Settles O11. -/
theorem fourteenBitDataIsTruncated : Obligations.FourteenBitDataIsTruncated := by
  intro c d hc
  obtain ⟨-, hw, -⟩ := variantTable c hc
  obtain ⟨-, -, -, hbyte3⟩ := frameByte_encodeFrame .w14 d
  rw [extractLsb'_and_dmask_w14] at hbyte3
  refine ⟨⟨encodeFrame .w14 d, encodeDesc_of_widthOf hw d, hbyte3⟩, encodeDesc_data_eq_iff hw d, ?_⟩
  rw [encodeDesc_of_widthOf hw]
  decide

/-- Settles O12. -/
theorem twelveBitDataIsTruncated : Obligations.TwelveBitDataIsTruncated := by
  intro c d hc
  obtain ⟨-, -, hw, -⟩ := variantTable c hc
  obtain ⟨-, -, -, hbyte3⟩ := frameByte_encodeFrame .w12 d
  rw [and_dmask_w12, BitVec.extractLsb'_append_eq_right] at hbyte3
  refine ⟨⟨encodeFrame .w12 d, encodeDesc_of_widthOf hw d, hbyte3⟩, encodeDesc_data_eq_iff hw d, ?_⟩
  rw [encodeDesc_of_widthOf hw]
  decide

end Sys2Proof.Machine
end

section
/-! PROOFS. Requests whose check fails (O16, O23, O39), and which instruction a step runs (O41, O42). -/

namespace Sys2Proof.Machine

/-! ## Failing checks -/

/-- A request whose rule raises a status: the status goes out and nothing else changes (R83, R125). -/
theorem exec_of_raise (i : Instr) (s : State) (st : Byte) (hready : s.ready) (hreq : isRequest i = true)
    (hacts : actsOf i s = .ok (raise st)) : exec i s = .next (s.reply st) := by
  rw [exec_request i s hreq, hacts, issue_raise s i st hready]

theorem exec_init_of_raise (s : State) (q : InitArgs) (st : Byte) (hready : s.ready) (h : initActs q = raise st) :
    exec (.init q) s = .next (s.reply st) :=
  exec_of_raise (.init q) s st hready rfl (congrArg Except.ok h)

theorem exec_write_of_raise (s : State) (q : WriteArgs) (st : Byte) (hready : s.ready)
    (h : writeActs s.cfg s.session q = raise st) : exec (.write q) s = .next (s.reply st) :=
  exec_of_raise (.write q) s st hready rfl (congrArg Except.ok h)

/-- Settles O16: the rule's first failing check gives its effects. -/
theorem initChecksInOrder : Obligations.InitChecksInOrder := by
  intro s q hready
  refine ⟨fun hhv => ?hv, fun hhv htp => ?tp, fun hhv htp hvariant => ?variant⟩
  case hv => exact exec_init_of_raise s q _ hready (by simp [initActs, hhv, statusInvalidArgument])
  case tp => exact exec_init_of_raise s q _ hready (by simp [initActs, hhv, htp, statusInvalidArgument])
  case variant => exact exec_init_of_raise s q _ hready (by simp [initActs, hhv, htp, hvariant, statusUnknownVersion])

/-- Settles O23: the rule's first failing check gives its effects. -/
theorem writeChecksInOrder : Obligations.WriteChecksInOrder := by
  intro s q hready
  refine ⟨fun hhv => ?hv, fun hhv htp => ?tp, fun hhv htp hshift => ?shift, fun hhv htp hshift hvariant => ?variant⟩
  case hv => exact exec_write_of_raise s q _ hready (by simp [writeActs, hhv, statusInvalidArgument])
  case tp => exact exec_write_of_raise s q _ hready (by simp [writeActs, hhv, htp, statusInvalidArgument])
  case shift => exact exec_write_of_raise s q _ hready (by simp [writeActs, hhv, htp, hshift, statusInvalidArgument])
  case variant =>
    have hencode := (encodeDesc_eq_none_iff s.cfg _ (descOperand q.desc)).2 hvariant
    exact exec_write_of_raise s q _ hready (by simp [writeActs, hhv, htp, hshift, hencode, statusUnknownVersion])

/-- Settles O39: RSVD's rule raises Error, and the op code 11 selects RSVD. -/
theorem rsvdRaisesError : Obligations.RsvdRaisesError := by
  intro s hready
  have hrsvd : ∀ u : State, u.ready → exec .rsvd u = .next (u.reply 0x01) := fun u hu =>
    exec_of_raise .rsvd u statusError hu rfl rfl
  refine ⟨hrsvd s hready, fun q rest hwf hop => ?_⟩
  rw [step_request s rest q hready hwf, select_rsvd hop]
  exact hrsvd { s with io := { s.io with port := rest } } hready

/-! ## The item a step takes -/

/-- Settles O41: R82's step of an IDLE block, where there is an item and it decodes. -/
theorem stepRunsTheDecodedInstruction : Obligations.StepRunsTheDecodedInstruction := by
  intro s item rest i hready hport hdecode
  have hfetch : s.fetch = some item := by rw [State.fetch, hport, List.head?_cons]
  have hdrop : s.dropItem = { s with io := { s.io with port := rest } } := by rw [State.dropItem, hport, List.tail_cons]
  rw [step_ready s hready, hfetch]
  simp only [hdecode, hdrop]

/-- Settles O42: with no item the step is the passing of an idle step, and no outside event comes nearer. -/
theorem idleBlockWaits : Obligations.IdleBlockWaits := by
  intro s hready hport
  have hfetch : s.fetch = none := by rw [State.fetch, hport, List.head?_nil]
  rw [step_ready s hready, hfetch]
  exact congrArg Host.Outcome.next (tick_quiet s hready.2)

end Sys2Proof.Machine
end

section
/-! PROOFS. What an operation sends (O45): a running operation sends nothing or it sends one status and is over, so no
effect comes after a response. -/

namespace Sys2Proof.Machine

/-- Since the ports were as in `io`, nothing has been sent, or one status has and the block is IDLE. -/
def State.sentAtMostOne (io : Io) (s : State) : Prop :=
  s.io = io ∨ (∃ st, s.io = { io with responses := io.responses ++ [st] }) ∧ s.block.phase = .idle

theorem sentAtMostOne_refl (s : State) : s.sentAtMostOne s.io := .inl rfl

@[simp] theorem poll_io (s : State) (f : InFlight) (c : TCall) : (s.poll f c).io = s.io := by
  rcases poll_cases s f c with ⟨st, -, hreturned⟩ | ⟨-, hpending⟩
  · rw [hreturned]
  · rw [hpending]

/-- Only a response moves the ports, and it ends the operation (R82). -/
theorem perform_sentAtMostOne (s : State) (f : InFlight) (a : Act) : (s.perform f a).sentAtMostOne s.io := by
  cases a with
  | callT r => exact .inl (poll_io _ f _)
  | respond st => exact .inr ⟨⟨st, rfl⟩, rfl⟩
  | respondRet => exact .inr ⟨⟨f.ret, rfl⟩, rfl⟩
  | respondAcc => exact .inr ⟨⟨s.block.acc, rfl⟩, rfl⟩
  | _ => exact .inl rfl

/-- No outside event takes an IDLE block out of IDLE. -/
theorem deliver_idle (s : State) (h : s.block.phase = .idle) : s.deliver.block.phase = .idle := by
  rcases deliver_session_block s with ⟨-, hkept⟩ | ⟨-, hreset⟩
  · rw [hkept, h]
  · rw [hreset]; rfl

/-- An operation that runs has sent nothing. -/
theorem io_of_running {io : Io} {s : State} {f : InFlight} (h : s.sentAtMostOne io) (hf : s.block.running = some f) :
    s.io = io := by
  rcases h with hkept | ⟨-, hidle⟩
  · exact hkept
  · obtain ⟨hbusy, -⟩ := (running_eq_some _ _).1 hf
    rw [hidle] at hbusy
    cases hbusy

theorem runActs_sentAtMostOne (acts : List Act) (s : State) : (runActs acts s).sentAtMostOne s.io := by
  refine runActs_keeps (State.sentAtMostOne s.io) (fun u hu => ?_) acts (fun u f a _ hf hu => ?_) s (sentAtMostOne_refl s)
  · rw [State.sentAtMostOne, deliver_io]
    exact hu.imp id (And.imp id (deliver_idle u))
  · rw [← io_of_running hu hf]
    exact perform_sentAtMostOne u f a

/-- A step sends at most one status, beside what it takes from the input and what the encoder returns. -/
theorem step_sentAtMostOne (s t : State) (h : step s = .next t) :
    ∃ io : Io, t.sentAtMostOne io ∧ io.responses = s.io.responses := by
  have hio : s.deliver.io.responses = s.io.responses := by rw [deliver_io]
  obtain ⟨-, ⟨f, -, hresume⟩ | ⟨-, -, rfl⟩ | ⟨item, i, -, -, -, hexec⟩⟩ := step_next s t h
  · obtain ⟨u, hlooked, hcase⟩ := resume_next _ _ _ hresume
    have hu : u.io.responses = s.io.responses := by
      rcases hlooked with rfl | ⟨c, -, rfl⟩
      · exact hio
      · rw [poll_io, hio]
    rcases hcase with ⟨-, rfl⟩ | ⟨g, acts, -, -, rfl⟩
    · exact ⟨_, sentAtMostOne_refl _, hu⟩
    · exact ⟨_, runActs_sentAtMostOne _ u, hu⟩
  · exact ⟨_, sentAtMostOne_refl s.deliver.tick, hio⟩
  · rcases exec_next i _ t hexec with ⟨-, acts, -, rfl⟩ | ⟨w, d, rfl⟩
    · exact ⟨_, runActs_sentAtMostOne acts (s.deliver.dropItem.accept i), hio⟩
    · exact ⟨_, sentAtMostOne_refl (s.deliver.dropItem.emitFrame w d), hio⟩

/-- Settles O45. -/
theorem stepSendsAtMostOneResponse : Obligations.StepSendsAtMostOneResponse := by
  intro s t hstep
  obtain ⟨io, hkept | ⟨⟨st, hsent⟩, hidle⟩, hio⟩ := step_sentAtMostOne s t hstep
  · exact .inl (by rw [hkept, hio])
  · exact .inr ⟨⟨st, by rw [hsent, hio]⟩, hidle⟩

end Sys2Proof.Machine
end

section
/-! PROOFS. A FORMAT that no outside event meets (O30, O31, O34): it writes its bytes and sends OK, and the rest of the state
stays. -/

namespace Sys2Proof.Machine

/-! ## The next state -/

theorem setPhase_idle {b : Block} (h : b.phase = .idle) : { b with phase := .idle } = b := by
  rw [← h]

/-- FORMAT's next state: DMEM after its byte writes, and OK (R96). -/
theorem formatted_eq (s : State) (q : FormatArgs) (F : Frame) (hready : s.ready) :
    s.formatted q F =
      { s with
        dmem := storeAll (formatCells F q) s.dmem
        io := { s.io with responses := s.io.responses ++ [0x00] } } := by
  obtain ⟨hidle, hquiet⟩ := hready
  rw [State.formatted, accept_quiet s _ hquiet, storeActs, runActs_stores _ _ _ _ (by exact hquiet) rfl rfl,
    runActs_respond _ _ _ _ (by exact hquiet) rfl, ← setPhase_idle hidle]
  rfl

/-- Settles O30. -/
theorem formatFillsItsRange : Obligations.FormatFillsItsRange := by
  intro s q hready hhv hdv hvariant hrange
  obtain ⟨F, hencode, hexec⟩ := exec_format_of_passes s q hready.1 ⟨hhv, hdv, hvariant, hrange⟩
  have hnr := noReset_of_quiet hready.2
  have hother := noOtherWrite_of_quiet hready.2
  refine ⟨F, (s.formatted q F).dmem, hencode, ?_, fun j hj => ?_, fun a ha => ?_⟩
  · rw [hexec, formatted_eq s q F hready]
  · exact dmemRead_of_find (formatted_find_inside_alone s q F hnr hother j hj)
  · exact dmemRead_congr (formatted_find_outside_alone s q F hnr hother a ha)

/-! ## Repeats and a leading part -/

/-- The bytes of `4 * k` places that repeat a frame: `k` copies of it. -/
theorem map_range_frameByte_mul (F : Frame) (k : Nat) :
    (List.range (4 * k)).map (fun j => frameByte F (j % 4)) = (List.replicate k (frameBytes F)).flatten := by
  induction k with
  | zero => rfl
  | succ k ih =>
    have hcopy : (List.range 4).map (fun j => frameByte F ((4 * k + j) % 4)) = frameBytes F := by
      simp only [Nat.mul_add_mod]
      rfl
    rw [Nat.mul_succ, List.range_add, List.map_append, ih, List.map_map, List.replicate_succ', List.flatten_append,
      List.flatten_singleton]
    exact congrArg _ hcopy

/-- The bytes of fewer places than a frame has: a leading part of it. -/
theorem map_range_frameByte_lt (F : Frame) {r : Nat} (hr : r < 4) :
    (List.range r).map (fun j => frameByte F (j % 4)) = (frameBytes F).take r := by
  interval_cases r <;> rfl

/-- R95: full repeats, then a leading part. -/
theorem map_range_frameByte (F : Frame) (n : Nat) :
    (List.range n).map (fun j => frameByte F (j % 4)) =
      (List.replicate (n / 4) (frameBytes F)).flatten ++ (frameBytes F).take (n % 4) := by
  conv_lhs => rw [← Nat.div_add_mod n 4, List.range_add, List.map_append, List.map_map]
  rw [map_range_frameByte_mul, ← map_range_frameByte_lt F (Nat.mod_lt n (by decide))]
  simp only [Function.comp_def, Nat.mul_add_mod]

/-- Settles O31: the range holds its frame bytes, and they are repeats and a leading part. -/
theorem formatWritesRepeatsThenALeadingPart : Obligations.FormatWritesRepeatsThenALeadingPart := by
  intro s q hready hhv hdv hvariant hrange
  obtain ⟨F, m, hencode, hexec, hinside, -⟩ := formatFillsItsRange s q hready hhv hdv hvariant hrange
  refine ⟨F, _, hencode, hexec, ?_⟩
  rw [← map_range_frameByte]
  exact List.map_congr_left fun j hj => hinside j (List.mem_range.1 hj)

/-! ## Another transport binding -/

/-- FORMAT's rule reads of the session the variant alone (R98). -/
theorem formatActs_congr (c : Config) (ses ses' : Session) (q : FormatArgs) (h : ses'.variant = ses.variant) :
    formatActs c ses' q = formatActs c ses q := by
  simp only [formatActs, h]

/-- FORMAT in another session with the same variant: the same status, the same bytes, or the same stop (R98). -/
theorem exec_format_withSession (s : State) (q : FormatArgs) (ses : Session) (hready : s.ready)
    (hvariant : ses.variant = s.session.variant) :
    exec (.format q) { s with session := ses } = mapNext (fun t => { t with session := ses }) (exec (.format q) s) := by
  have hsame := formatActs_congr s.cfg s.session ses q hvariant
  cases hacts : formatActs s.cfg s.session q with
  | error r =>
    rw [exec_format_of_refused s q r hready.1 hacts,
      exec_format_of_refused { s with session := ses } q r hready.1 (hsame.trans hacts)]
    rfl
  | ok acts =>
    rcases raise_or_passes_of_formatActs _ _ q acts hacts with ⟨st, rfl⟩ | hpasses
    · rw [exec_format_of_raise s q st hready hacts,
        exec_format_of_raise { s with session := ses } q st hready (hsame.trans hacts)]
      rfl
    · obtain ⟨F, hencode, hexec⟩ := exec_format_of_passes s q hready.1 hpasses
      obtain ⟨F', hencode', hexec'⟩ := exec_format_of_passes { s with session := ses } q hready.1
        (by rw [FormatPasses, hvariant]; exact hpasses)
      obtain rfl : F = F' := by
        rw [hvariant, hencode] at hencode'
        exact Option.some.inj hencode'
      rw [hexec, hexec', formatted_eq s q F hready, formatted_eq { s with session := ses } q F hready]
      rfl

/-- Settles O34: the binding, the capabilities and the context are replaced, and the variant is kept. -/
theorem formatIgnoresTheTransportBinding : Obligations.FormatIgnoresTheTransportBinding := by
  intro s q tp capShift capSel capLdac capClr ctx hready
  refine (exec_format_withSession s q _ hready (by rfl)).trans ?_
  cases exec (.format q) s <;> rfl

end Sys2Proof.Machine
end

section
/-! PROOFS. An INIT that passes its checks (O17, O18, O20): what no answer of the transport can change, and the priming calls
that return, with the line that each of them drives. -/

namespace Sys2Proof.Machine

/-- The state once INIT has made its commit and cleared B.acc (R86). -/
def State.committed (s : State) (q : InitArgs) : State :=
  { s with
    session := initSession q
    block := { phase := .busy { op := .init q, step := 2, ret := statusOk, pending := none }, acc := 0x00 } }

/-- After the commit come the priming calls and the response. -/
def primingActs (q : InitArgs) : List Act := primeList (primingReqs q) ++ [.respondAcc]

theorem exec_init_of_passes (s : State) (q : InitArgs) (hready : s.ready) (h : InitPasses q) :
    exec (.init q) s = .next (runActs (primingActs q) (s.committed q)) := by
  obtain ⟨hhv, htp, hvariant⟩ := h
  rw [exec_request _ s rfl, actsOf, initActs_valid q hhv htp hvariant, issue_ready s _ _ hready,
    runActs_commit _ _ _ _ (by exact hready.2) rfl]
  rfl

/-! ## Whatever the transport answers -/

/-- An effect only adds to the trace, and leaves the earlier traces (R101). -/
theorem perform_trace (s : State) (f : InFlight) (a : Act) :
    s.trace <+: (s.perform f a).trace ∧ (s.perform f a).earlier = s.earlier := by
  cases a with
  | callT r =>
    rw [State.perform, callTransport_eq]
    rcases poll_cases { s with trace := s.trace ++ [.call (r.withCtx s.session.ctx)] } f (r.withCtx s.session.ctx) with
      ⟨st, -, hreturned⟩ | ⟨-, hpending⟩
    · rw [hreturned]; exact ⟨(List.prefix_append _ _).trans (List.prefix_append _ _), rfl⟩
    · rw [hpending]; exact ⟨List.prefix_append _ _, rfl⟩
  | _ => exact ⟨List.prefix_refl _, rfl⟩

theorem runActs_trace (acts : List Act) (s : State) (hquiet : s.env.events = []) :
    s.trace <+: (runActs acts s).trace ∧ (runActs acts s).earlier = s.earlier := by
  refine (runActs_keeps (fun u => u.env.events = [] ∧ s.trace <+: u.trace ∧ u.earlier = s.earlier) ?_ acts ?_ s
    ⟨hquiet, List.prefix_refl _, rfl⟩).2
  · rintro u ⟨hu, htrace⟩
    rw [deliver_quiet u hu]
    exact ⟨hu, htrace⟩
  · rintro u f a - - ⟨hu, htrace, hearlier⟩
    obtain ⟨htrace', hearlier'⟩ := perform_trace u f a
    exact ⟨perform_quiet u f a hu, htrace.trans htrace', hearlier'.trans hearlier⟩

/-- A response is all that running effects does to the ports. -/
theorem runActs_port_encoded (acts : List Act) (s : State) :
    (runActs acts s).io.port = s.io.port ∧ (runActs acts s).io.encoded = s.io.encoded := by
  rcases runActs_sentAtMostOne acts s with hkept | ⟨⟨st, hsent⟩, -⟩
  · rw [hkept]; exact ⟨rfl, rfl⟩
  · rw [hsent]; exact ⟨rfl, rfl⟩

/-- Settles O17: the commit is made before the first call, and none of the effects after it writes the session or DMEM. -/
theorem initCommitStandsWhateverTheTransportDoes : Obligations.InitCommitStandsWhateverTheTransportDoes := by
  intro s q hready hhv htp hvariant
  have hquiet : (s.committed q).env.events = [] := hready.2
  obtain ⟨hport, hencoded⟩ := runActs_port_encoded (primingActs q) (s.committed q)
  obtain ⟨htrace, hearlier⟩ := runActs_trace (primingActs q) (s.committed q) hquiet
  refine ⟨_, exec_init_of_passes s q hready ⟨hhv, htp, hvariant⟩, ?_, ?_, hport, hencoded, runActs_cfg _ _, hearlier,
    htrace⟩
  · exact (runActs_session _ _ (noReset_of_quiet hquiet)).resolve_right (by simp [primingActs, primeList])
  · exact runActs_dmem _ _ (noOtherWrite_of_quiet hquiet) (by simp [primingActs, primeList])

/-! ## The lines -/

/-- The line that a call moves (R103, R106). -/
def TCall.line : TCall → Line
  | .shift _ _ _ => .sync
  | .setClr _ _ => .clr
  | .setLdac _ _ => .ldac
  | .setSelect _ _ => .sync

/-- The level of a line. -/
def Lines.level (l : Lines) : Line → Level
  | .sync => l.sync
  | .ldac => l.ldac
  | .clr => l.clr

/-- A call moves its own line only. -/
theorem level_linesAfter_of_ne (c : TCall) (ans : Answer) (n : Nat) (l : Lines) (k : Line) (h : c.line ≠ k) :
    (linesAfter c ans n l).level k = l.level k := by
  cases c <;> cases k <;> first | rfl | exact absurd rfl h

/-- The lines after calls, each with the status it returned and the number of its answer. -/
def linesAfterCalls (xs : List (TCall × Byte × Nat)) (l : Lines) : Lines :=
  xs.foldl (fun l x => linesAfter x.1 (.returned x.2.1) x.2.2 l) l

/-- A line is as `P` says, when each call that moves it leaves it so, and when it is so before unless a call moves it. -/
theorem level_linesAfterCalls (P : Level → Prop) (k : Line) (xs : List (TCall × Byte × Nat)) (l : Lines)
    (hcalls : ∀ x ∈ xs, x.1.line = k → ∀ l, P ((linesAfter x.1 (.returned x.2.1) x.2.2 l).level k))
    (hfirst : P (l.level k) ∨ ∃ x ∈ xs, x.1.line = k) : P ((linesAfterCalls xs l).level k) := by
  induction xs generalizing l with
  | nil => exact hfirst.resolve_right (by simp)
  | cons x xs ih =>
    obtain ⟨hhead, htail⟩ := List.forall_mem_cons.1 hcalls
    refine ih _ htail ?_
    by_cases hx : x.1.line = k
    · exact .inl (hhead hx l)
    · rw [level_linesAfter_of_ne _ _ _ _ _ hx]
      rcases hfirst with hbefore | ⟨y, hy, hline⟩
      · exact .inl hbefore
      · exact .inr ⟨y, (List.mem_cons.1 hy).resolve_left (fun heq => hx (heq ▸ hline)), hline⟩

/-! ## Priming -/

/-- Does the transport that the request binds have the function that drives the line? -/
def hasFunction (q : InitArgs) : Line → Bool
  | .sync => q.capSel
  | .ldac => q.capLdac
  | .clr => q.capClr

/-- The level that priming gives a line (R87). -/
def primedLevel : Line → Level
  | .sync => .high
  | .ldac => .low
  | .clr => .high

/-- The priming call that drives a line (R87). -/
def primingCall (ctx : Nat) : Line → TCall
  | .sync => .setSelect 1 ctx
  | .ldac => .setLdac 0 ctx
  | .clr => .setClr 1 ctx

@[simp] theorem line_primingCall (ctx : Nat) (k : Line) : (primingCall ctx k).line = k := by
  cases k <;> rfl

/-- A priming call that returns OK leaves its line at the priming level (R111). -/
theorem level_linesAfter_primingCall (ctx n : Nat) (k : Line) (l : Lines) :
    (linesAfter (primingCall ctx k) (.returned 0x00#8) n l).level k = primedLevel k := by
  cases k <;> rfl

theorem mem_primingCalls (q : InitArgs) (c : TCall) :
    c ∈ primingCalls q ↔ ∃ k, hasFunction q k = true ∧ c = primingCall q.ctx k := by
  constructor
  · simp only [primingCalls, List.mem_append, List.mem_ite_nil_right, List.mem_singleton]
    rintro ((⟨hcap, rfl⟩ | ⟨hcap, rfl⟩) | ⟨hcap, rfl⟩)
    · exact ⟨.clr, hcap, rfl⟩
    · exact ⟨.ldac, hcap, rfl⟩
    · exact ⟨.sync, hcap, rfl⟩
  · rintro ⟨k, hcap, rfl⟩
    cases k <;> simp_all [primingCalls, primingCall, hasFunction]

/-- INIT's priming calls with the statuses they return, and the numbers of their answers. -/
def returnedPrimes (q : InitArgs) (sts : List Byte) (n : Nat) : List (TCall × Byte × Nat) :=
  (primingCalls q).zip (sts.zip (List.range' n (primingCalls q).length))

theorem mem_returnedPrimes {q : InitArgs} {sts : List Byte} {n : Nat} {x : TCall × Byte × Nat}
    (h : x ∈ returnedPrimes q sts n) : x.1 ∈ primingCalls q ∧ x.2.1 ∈ sts :=
  ⟨(List.of_mem_zip h).1, (List.of_mem_zip (List.of_mem_zip h).2).1⟩

theorem exists_mem_returnedPrimes {q : InitArgs} {sts : List Byte} (n : Nat) {c : TCall}
    (hlen : sts.length = (primingCalls q).length) (h : c ∈ primingCalls q) :
    ∃ x ∈ returnedPrimes q sts n, x.1 = c := by
  have hcalls : (returnedPrimes q sts n).map Prod.fst = primingCalls q := List.map_fst_zip (by simp [hlen])
  rw [← hcalls] at h
  exact List.mem_map.1 h

/-- A line that has no function stays (R87). -/
theorem level_unprimed (q : InitArgs) (sts : List Byte) (n : Nat) (l : Lines) (k : Line) (hcap : hasFunction q k = false) :
    (linesAfterCalls (returnedPrimes q sts n) l).level k = l.level k := by
  refine level_linesAfterCalls (· = l.level k) k _ l (fun x hx hline => ?_) (.inl rfl)
  obtain ⟨k', hcap', hcall⟩ := (mem_primingCalls q x.1).1 (mem_returnedPrimes hx).1
  rw [hcall, line_primingCall] at hline
  rw [hline, hcap] at hcap'
  cases hcap'

/-- A line that has a function is at its priming level after calls that have all returned OK (R87, R111). -/
theorem level_primed (q : InitArgs) (sts : List Byte) (n : Nat) (l : Lines) (k : Line)
    (hcap : hasFunction q k = true) (hlen : sts.length = (primingCalls q).length) (hok : ∀ x ∈ sts, x = 0x00#8) :
    (linesAfterCalls (returnedPrimes q sts n) l).level k = primedLevel k := by
  refine level_linesAfterCalls (· = primedLevel k) k _ l (fun x hx hline l => ?_) (.inr ?_)
  · obtain ⟨hcall, hst⟩ := mem_returnedPrimes hx
    obtain ⟨k', -, hcall⟩ := (mem_primingCalls q x.1).1 hcall
    rw [hcall, line_primingCall] at hline
    rw [hcall, hok _ hst, hline, level_linesAfter_primingCall]
  · obtain ⟨x, hx, hcall⟩ := exists_mem_returnedPrimes n hlen ((mem_primingCalls q _).2 ⟨k, hcap, rfl⟩)
    exact ⟨x, hx, by rw [hcall, line_primingCall]⟩

/-! ## The priming calls return -/

/-- The next state of an INIT whose priming calls all return (R86, R87). -/
theorem exec_init_returned (s : State) (q : InitArgs) (sts : List Byte) (hready : s.ready) (hpasses : InitPasses q)
    (hlen : sts.length = (primingCalls q).length) (hreturns : s.returnsNext sts) :
    exec (.init q) s =
      .next
        { s with
          session := initSession q
          block := Block.reset
          trace := s.trace ++ callLog (primingCalls q) sts
          lines := linesAfterCalls (returnedPrimes q sts s.env.polls) s.lines
          io := { s.io with responses := s.io.responses ++ [sts.foldl (· ||| ·) 0x00] }
          env := { s.env with polls := s.env.polls + sts.length } } := by
  have hreqs : (primingReqs q).map (·.withCtx (s.committed q).session.ctx) = primingCalls q := primingReqs_withCtx q
  have hlen' : (primingReqs q).length = (primingCalls q).length := by rw [← hreqs, List.length_map]
  obtain ⟨ret, l, hprimes, hlines⟩ := runActs_primes_returned (primingReqs q) sts [.respondAcc] (s.committed q) _
    hready.2 rfl rfl (hlen.trans hlen'.symm) hreturns
  rw [exec_init_of_passes s q hready hpasses, primingActs, hprimes, runActs_respondAcc _ _ [] (by exact hready.2) rfl,
    hlines, hreqs, hlen', hlen]
  rfl

/-- Settles O18. -/
theorem initPrimesInOrderAndReturnsTheOr : Obligations.InitPrimesInOrderAndReturnsTheOr := by
  intro s q sts hready hhv htp hvariant hlen hreturns
  refine ⟨_, exec_init_returned s q sts hready ⟨hhv, htp, hvariant⟩ hlen hreturns, ?_⟩
  have hkept := level_unprimed q sts s.env.polls s.lines
  exact ⟨hkept .clr, hkept .ldac, hkept .sync⟩

/-- Settles O20: a line with a function is primed, and the others stay. -/
theorem initLeavesTheLinesPrimed : Obligations.InitLeavesTheLinesPrimed := by
  intro s q sts hready hhv htp hvariant hlen hreturns hok
  refine ⟨_, exec_init_returned s q sts hready ⟨hhv, htp, hvariant⟩ hlen hreturns, ?_⟩
  have hlevel : ∀ k, (linesAfterCalls (returnedPrimes q sts s.env.polls) s.lines).level k =
      if hasFunction q k then primedLevel k else s.lines.level k := by
    intro k
    split
    · next hcap => exact level_primed q sts _ _ k hcap hlen hok
    · next hcap => exact level_unprimed q sts _ _ k (Bool.of_not_eq_true hcap)
  exact ⟨hlevel .clr, hlevel .ldac, hlevel .sync⟩

end Sys2Proof.Machine
end

section
/-! PROOFS. A WRITE that passes its checks: its one shift call returns or is out (O24), what RW changes of it (O26), and how
the WRITE ends when the call returns after a delay (O44). -/

namespace Sys2Proof.Machine

/-! ## The rule -/

/-- A response with the status of the call that returned last (R90). -/
theorem runActs_respondRet (s : State) (f : InFlight) (as : List Act) (hquiet : s.env.events = [])
    (hf : s.block.running = some f) :
    runActs (.respondRet :: as) s =
      { s with block := { s.block with phase := .idle }
               io := { s.io with responses := s.io.responses ++ [f.ret] } } := by
  rw [runActs_running _ _ _ f hquiet hf, runActs_stopped _ _ (perform_quiet _ _ _ hquiet) rfl]
  exact tick_quiet _ hquiet

/-- WRITE's rule where its checks pass and F is its frame (R88). -/
theorem writeActs_of_encode {c : Config} {ses : Session} {q : WriteArgs} {F : Frame} (hhv : q.hv = true)
    (htp : ses.tp = true) (hshift : ses.capShift = true)
    (hencode : encodeDesc c ses.variant.toNat (descOperand q.desc) = some F) :
    writeActs c ses q = [.callT (.shift F), .respondRet] := by
  simp [writeActs, hhv, htp, hshift, hencode]

/-! ## The shift call -/

section
variable (s : State) (q : WriteArgs) (F : Frame) (hready : s.ready)
  (hacts : writeActs s.cfg s.session q = [.callT (.shift F), .respondRet])
include hready hacts

/-- The next state of a WRITE whose call returns (R89, R90). -/
theorem exec_write_returned (st : Byte) (hanswer : s.env.answer s.env.polls = .returned st) :
    exec (.write q) s =
      .next
        { s with
          trace := s.trace ++ [.call (.shift (frameBytes F) 4 s.session.ctx), .ret st]
          lines := { s.lines with sync := .high }
          io := { s.io with responses := s.io.responses ++ [st] }
          env := { s.env with polls := s.env.polls + 1 } } := by
  rw [exec_request _ s rfl, actsOf, hacts, issue_ready s _ _ hready,
    runActs_call_returned _ _ _ st _ (by exact hready.2) rfl (by exact hanswer),
    runActs_respondRet _ _ _ (by exact hready.2) rfl, ← setPhase_idle hready.1]
  rfl

/-- The next state of a WRITE whose call is out (R113). -/
theorem exec_write_pending (hanswer : s.env.answer s.env.polls = .pending) :
    exec (.write q) s =
      .next
        { s with
          block :=
            { s.block with
              phase :=
                .busy
                  { op := .write q, step := 0, ret := statusOk,
                    pending := some (.shift (frameBytes F) 4 s.session.ctx) } }
          trace := s.trace ++ [.call (.shift (frameBytes F) 4 s.session.ctx)]
          lines := { s.lines with sync := Config.lineLevel s.env.polls }
          env := { s.env with polls := s.env.polls + 1 } } := by
  rw [exec_request _ s rfl, actsOf, hacts, issue_ready s _ _ hready,
    runActs_call_pending _ _ _ _ (by exact hready.2) rfl (by exact hanswer)]
  rfl

end

/-- Settles O24. -/
theorem writeShiftsItsFrameOnce : Obligations.WriteShiftsItsFrameOnce := by
  intro s q st hready hhv htp hshift hvariant hanswer
  obtain ⟨F, hencode⟩ := Option.ne_none_iff_exists'.1
    (mt (encodeDesc_eq_none_iff s.cfg _ (descOperand q.desc)).1 (Nat.not_lt.2 hvariant))
  exact ⟨F, hencode, exec_write_returned s q F hready (writeActs_of_encode hhv htp hshift hencode) st hanswer⟩

/-! ## RW -/

/-- R54, R71: RW is frame bit 28, and no other bit of the frame. -/
theorem packF16_rw_one (cmd addr mode : BitVec 4) (data : BitVec 16) :
    packF16 1 cmd addr data mode = packF16 0 cmd addr data mode ||| 0x10000000#32 := by
  have hmask : ∀ i < 32, (0x10000000#32).getLsbD i = decide (i = 28) := by decide
  refine BitVec.eq_of_getLsbD_eq fun i hi => ?_
  rw [BitVec.getLsbD_or, hmask i hi, getLsbD_packF16, getLsbD_packF16]
  by_cases h28 : i = 28
  · subst h28
    rfl
  · rw [decide_eq_false h28, Bool.or_false]
    split_ifs <;> first | rfl | omega

/-- The frames of a descriptor with RW = 0 and with RW = 1 (R71). -/
theorem encodeDesc_rw (c : Config) (v : Nat) (d : Desc) (hv : v ≤ 2) :
    ∃ F, encodeDesc c v (descOperand { d with rw := 0 }) = some F ∧ F.extractLsb' 28 1 = 0#1 ∧
      encodeDesc c v (descOperand { d with rw := 1 }) = some (F ||| 0x10000000#32) := by
  obtain ⟨w, hw⟩ := Option.ne_none_iff_exists'.1 (mt (widthOf_eq_none_iff c v).1 (Nat.not_lt.2 hv))
  refine ⟨_, encodeDesc_of_widthOf hw _, ?_, ?_⟩
  · rw [encodeFrame_descOperand, extractLsb'_packF16_rw]
    rfl
  · rw [encodeDesc_of_widthOf hw, encodeFrame_descOperand, encodeFrame_descOperand, packF16_rw_one]

/-- A WRITE that fails a check raises a status that does not depend on its descriptor (R91). -/
theorem exec_write_of_fails (s : State) (hv : Bool) (hready : s.ready)
    (hfails : hv = false ∨ s.session.tp = false ∨ s.session.capShift = false ∨ 2 < s.session.variant.toNat) :
    ∃ st, ∀ d, exec (.write { hv := hv, desc := d }) s = .next (s.reply st) := by
  have hchecks := fun d => writeChecksInOrder s { hv := hv, desc := d } hready
  cases hv with
  | false => exact ⟨0x02, fun d => have ⟨hreply, _, _, _⟩ := hchecks d; hreply rfl⟩
  | true =>
    cases htp : s.session.tp with
    | false => exact ⟨0x02, fun d => have ⟨_, hreply, _, _⟩ := hchecks d; hreply rfl htp⟩
    | true =>
      cases hshift : s.session.capShift with
      | false => exact ⟨0x02, fun d => have ⟨_, _, hreply, _⟩ := hchecks d; hreply rfl htp hshift⟩
      | true =>
        have hvariant : 2 < s.session.variant.toNat := by simpa [htp, hshift] using hfails
        exact ⟨0x03, fun d => have ⟨_, _, _, hreply⟩ := hchecks d; hreply rfl htp hshift hvariant⟩

/-- Settles O26: a failing check does not look at the descriptor; a WRITE that passes them uses it in its one call alone,
which returns for both or is out for both. -/
theorem readFrameIsShiftedLikeAnyOther : Obligations.ReadFrameIsShiftedLikeAnyOther := by
  intro s d hready
  refine ⟨fun hv hfails => ?fails, fun htp hshift hvariant => ?passes⟩
  case fails =>
    obtain ⟨st, hraise⟩ := exec_write_of_fails s hv hready hfails
    rw [hraise, hraise]
  case passes =>
    obtain ⟨F, hencode0, hbit, hencode1⟩ := encodeDesc_rw s.cfg s.session.variant.toNat d hvariant
    have hacts0 := writeActs_of_encode (q := { hv := true, desc := { d with rw := 0 } }) rfl htp hshift hencode0
    have hacts1 := writeActs_of_encode (q := { hv := true, desc := { d with rw := 1 } }) rfl htp hshift hencode1
    cases hanswer : s.env.answer s.env.polls with
    | returned st =>
      refine ⟨_, F, [.ret st], exec_write_returned s _ F hready hacts0 st hanswer, hencode0, hbit, rfl, ?_⟩
      rw [exec_write_returned s _ _ hready hacts1 st hanswer]
      simp only [hready.1, setPhase_idle]
    | pending =>
      refine ⟨_, F, [], exec_write_pending s _ F hready hacts0 hanswer, hencode0, hbit, rfl, ?_⟩
      rw [exec_write_pending s _ _ hready hacts1 hanswer]

/-! ## A WRITE that waits -/

/-- A run whose first step answers a next state goes on from there. -/
theorem run_succ (M : Host.Core) (n : Nat) (s t : M.State) (h : M.step s = .next t) : M.run (n + 1) s = M.run n t := by
  rw [Host.Core.run, h]

/-- The state after `n` looks at a call that have not moved anything but its line (R113). -/
def State.looked (s : State) (l : Lines) (n : Nat) : State :=
  { s with lines := l, env := { s.env with polls := s.env.polls + n } }

/-- While its call does not return, a BUSY block looks at it and stays as it is (R113). -/
theorem step_pending (s : State) (f : InFlight) (c : TCall) (hquiet : s.env.events = []) (hbusy : s.block.phase = .busy f)
    (hpending : f.pending = some c) (hanswer : s.env.answer s.env.polls = .pending) :
    ∃ l, step s = .next (s.looked l 1) := by
  refine ⟨linesAfter c .pending s.env.polls s.lines, ?_⟩
  have hflight : { f with pending := some c } = f := by rw [← hpending]
  have hblock : { s.block with phase := .busy f } = s.block := by rw [← hbusy]
  rw [step_busy s f hquiet hbusy, resume_of_pending s f c hpending, poll_pending s f c hanswer, hflight, hblock, hquiet,
    tickEvents_nil, ← hquiet]
  have hwaits : s.block.running = none := by rw [Block.running, hbusy]; simp only [hpending]
  unfold State.goOn
  simp only [hwaits]
  rfl

/-- Steps in which a call does not return, before others. -/
theorem run_pending (n m : Nat) (s : State) (f : InFlight) (c : TCall) (hquiet : s.env.events = [])
    (hbusy : s.block.phase = .busy f) (hpending : f.pending = some c)
    (hanswers : ∀ k < n, s.env.answer (s.env.polls + k) = .pending) :
    ∃ l, Sys2Proof.core.run (n + m) s = Sys2Proof.core.run m (s.looked l n) := by
  induction n generalizing s with
  | zero => exact ⟨s.lines, by rw [Nat.zero_add]; rfl⟩
  | succ n ih =>
    obtain ⟨l, hstep⟩ := step_pending s f c hquiet hbusy hpending (hanswers 0 n.succ_pos)
    have hanswers' : ∀ k < n, (s.looked l 1).env.answer ((s.looked l 1).env.polls + k) = .pending := fun k hk => by
      have hnext := hanswers (k + 1) (Nat.succ_lt_succ hk)
      rwa [Nat.add_comm k, ← Nat.add_assoc] at hnext
    obtain ⟨l', hrun⟩ := ih (s.looked l 1) hquiet hbusy hanswers'
    refine ⟨l', ?_⟩
    rw [Nat.add_right_comm, run_succ Sys2Proof.core _ _ _ hstep, hrun]
    simp only [State.looked, Nat.add_assoc, Nat.add_comm 1]

/-- A WRITE whose call returns sends that call's status (R90). -/
theorem step_write_returned (s : State) (f : InFlight) (q : WriteArgs) (F : Frame) (st : Byte)
    (hquiet : s.env.events = []) (hbusy : s.block.phase = .busy f) (hop : f.op = .write q) (hstep : f.step = 0)
    (hacts : writeActs s.cfg s.session q = [.callT (.shift F), .respondRet])
    (hpending : f.pending = some (.shift (frameBytes F) 4 s.session.ctx))
    (hanswer : s.env.answer s.env.polls = .returned st) :
    step s =
      .next
        { s with
          block := { s.block with phase := .idle }
          trace := s.trace ++ [.ret st]
          lines := { s.lines with sync := .high }
          io := { s.io with responses := s.io.responses ++ [st] }
          env := { s.env with polls := s.env.polls + 1 } } := by
  rw [step_busy s f hquiet hbusy, resume_of_pending s f _ hpending, poll_returned s f _ st hanswer, hquiet,
    tickEvents_nil, ← hquiet, State.goOn]
  simp only [running_busy, actsOf, hop, hacts, hstep, Nat.zero_add, List.drop_one, List.tail_cons]
  rw [runActs_respondRet _ _ _ (by exact hquiet) rfl]
  rfl

/-- Settles O44: the looks that find the call still out, and the one that finds it returned. -/
theorem waitingWritePassesTheStatusOn : Obligations.WaitingWritePassesTheStatusOn := by
  intro s f q F st n hquiet hbusy hop hstep hhv htp hshift hencode hpending hanswers hreturned
  obtain ⟨l, hrun⟩ := run_pending n 1 s f _ hquiet hbusy hpending hanswers
  have hlast := step_write_returned (s.looked l n) f q F st hquiet hbusy hop hstep
    (writeActs_of_encode hhv htp hshift hencode) hpending hreturned
  rw [run_succ Sys2Proof.core 0 _ _ hlast] at hrun
  exact ⟨_, hrun, rfl, rfl, rfl, rfl, rfl, rfl⟩

end Sys2Proof.Machine
end

section
/-! PROOFS. The calls (O52, O53): which rules make a call and with which arguments, and what each operation of a step puts
into the trace and into the earlier traces. -/

namespace Sys2Proof.Machine

/-! ## The calls of a rule -/

/-- A call stands in INIT's rule, as one of its priming calls (R87), or in WRITE's, as a shift call (R89). -/
theorem rule_of_callT_mem (i : Instr) (s : State) (acts : List Act) (r : CallReq) (h : actsOf i s = .ok acts)
    (hmem : .callT r ∈ acts) :
    (∃ q, i = .init q ∧ r ∈ primingReqs q) ∨ ∃ q F, i = .write q ∧ r = .shift F := by
  cases i with
  | init q =>
    cases h
    rcases initActs_cases q with ⟨st, hraise⟩ | ⟨-, hacts⟩
    · simp [hraise, raise] at hmem
    · exact .inl ⟨q, rfl, by simpa [hacts, primeList] using hmem⟩
  | write q =>
    cases h
    rcases writeActs_cases s.cfg s.session q with ⟨st, hraise⟩ | ⟨-, F, hacts⟩
    · simp [hraise, raise] at hmem
    · exact .inr ⟨q, F, rfl, by simpa [hacts] using hmem⟩
  | format q =>
    rcases formatActs_cases s.cfg s.session q acts h with ⟨st, rfl⟩ | ⟨-, F, rfl⟩
    · simp [raise] at hmem
    · simp [formatStores] at hmem
  | _ => cases h; simp [rsvdActs, raise] at hmem

/-- The priming calls have the levels of R103. -/
theorem withCtx_allowed_of_mem_primingReqs (q : InitArgs) (r : CallReq) (ctx : Nat) (h : r ∈ primingReqs q) :
    (r.withCtx ctx).allowed := by
  simp only [primingReqs, List.mem_append, List.mem_ite_nil_right, List.mem_singleton] at h
  rcases h with (⟨-, rfl⟩ | ⟨-, rfl⟩) | ⟨-, rfl⟩ <;> rfl

/-- Whatever the context, a call that stands in a rule is one that the block may make. -/
theorem withCtx_allowed_of_callT_mem (i : Instr) (s : State) (acts : List Act) (h : actsOf i s = .ok acts) (r : CallReq)
    (hmem : .callT r ∈ acts) (ctx : Nat) : (r.withCtx ctx).allowed := by
  rcases rule_of_callT_mem i s acts r h hmem with ⟨q, -, hr⟩ | ⟨q, F, -, rfl⟩
  · exact withCtx_allowed_of_mem_primingReqs q r ctx hr
  · exact ⟨rfl, rfl⟩

/-! ## What an operation of a step records -/

/-- Looking at a call records its return, if it has returned, and nothing else. -/
theorem poll_records (s : State) (f : InFlight) (c : TCall) :
    (s.poll f c).earlier = s.earlier ∧ ∃ sts : List Byte, (s.poll f c).trace = s.trace ++ sts.map .ret := by
  rcases poll_cases s f c with ⟨st, -, hreturned⟩ | ⟨-, hpending⟩
  · rw [hreturned]; exact ⟨rfl, [st], rfl⟩
  · rw [hpending]; exact ⟨rfl, [], (List.append_nil _).symm⟩

/-- Only a call is recorded, with what it returns at once (R101). -/
theorem perform_records (s : State) (f : InFlight) (a : Act) :
    (s.perform f a).trace = s.trace ∨
      ∃ r, ∃ sts : List Byte, a = .callT r ∧
        (s.perform f a).trace = s.trace ++ .call (r.withCtx s.session.ctx) :: sts.map .ret := by
  cases a with
  | callT r =>
    obtain ⟨-, sts, htrace⟩ := poll_records { s with trace := s.trace ++ [.call (r.withCtx s.session.ctx)] } f
      (r.withCtx s.session.ctx)
    exact .inr ⟨r, sts, rfl, htrace.trans (List.append_assoc _ _ _)⟩
  | _ => exact .inl rfl

@[simp] theorem lateReturn_trace (s : State) (status : Byte) : (s.lateReturn status).trace = s.trace := by
  unfold State.lateReturn
  split <;> rfl

/-- Only a reset moves the trace (R31, R135). -/
theorem outside_trace (s : State) (act : EnvAct) (h : act.isReset = false) : (s.outside act).trace = s.trace := by
  cases act with
  | reset => cases h
  | lateReturn status => exact lateReturn_trace s status
  | _ => rfl

theorem deliver_trace (s : State) (h : s.noReset) : s.deliver.trace = s.trace :=
  deliver_keeps (fun u => u.trace = s.trace) s (fun _ _ hu => hu)
    (fun e he u hu => (outside_trace u e.act (h e he)).trans hu) rfl

/-- Effects without a call leave the trace, while no reset comes. -/
theorem runActs_trace_of_no_call (acts : List Act) (s : State) (hnr : s.noReset) (hacts : ∀ r, .callT r ∉ acts) :
    (runActs acts s).trace = s.trace := by
  refine (runActs_keeps (fun u => u.noReset ∧ u.trace = s.trace) ?_ acts ?_ s ⟨hnr, rfl⟩).2
  · rintro u ⟨hu, htrace⟩
    exact ⟨toCome_deliver (·.isReset = false) u hu, (deliver_trace u hu).trans htrace⟩
  · rintro u f a ha - ⟨hu, htrace⟩
    refine ⟨toCome_perform (·.isReset = false) u f a hu, ?_⟩
    rcases perform_records u f a with hkept | ⟨r, -, rfl, -⟩
    · exact hkept.trans htrace
    · exact absurd ha (hacts r)

/-! ## The calls that are recorded -/

@[simp] theorem callsAllowed_append (t u : List TraceEvent) : callsAllowed (t ++ u) ↔ callsAllowed t ∧ callsAllowed u := by
  simp only [callsAllowed, List.mem_append, or_imp, forall_and]

@[simp] theorem callsAllowed_cons_call (c : TCall) (t : List TraceEvent) :
    callsAllowed (.call c :: t) ↔ c.allowed ∧ callsAllowed t := by
  simp [callsAllowed, or_imp, forall_and]

/-- A return is no call. -/
@[simp] theorem callsAllowed_returns (sts : List Byte) : callsAllowed (sts.map .ret) := by
  simp [callsAllowed]

/-- Every call made since power-on is one that the block may make. -/
def State.recordsAllowed (s : State) : Prop := callsAllowed s.trace ∧ callsAllowed s.earlier

/-- A reset moves the trace to the earlier ones (R31, R135), and a late return adds a return to those. -/
theorem outside_recordsAllowed (s : State) (act : EnvAct) (h : s.recordsAllowed) : (s.outside act).recordsAllowed := by
  obtain ⟨htrace, hearlier⟩ := h
  cases act with
  | reset => exact ⟨callsAllowed_returns [], (callsAllowed_append _ _).2 ⟨hearlier, htrace⟩⟩
  | lateReturn status =>
    simp only [State.outside, State.lateReturn]
    split
    · exact ⟨htrace, hearlier⟩
    · exact ⟨htrace, (callsAllowed_append _ _).2 ⟨hearlier, callsAllowed_returns [status]⟩⟩
  | _ => exact ⟨htrace, hearlier⟩

theorem deliver_recordsAllowed (s : State) (h : s.recordsAllowed) : s.deliver.recordsAllowed :=
  deliver_keeps State.recordsAllowed s (fun _ _ hu => hu) (fun e _ u hu => outside_recordsAllowed u e.act hu) h

theorem poll_recordsAllowed (s : State) (f : InFlight) (c : TCall) (h : s.recordsAllowed) :
    (s.poll f c).recordsAllowed := by
  obtain ⟨hbefore, hearlier⟩ := h
  obtain ⟨hkept, sts, htrace⟩ := poll_records s f c
  rw [State.recordsAllowed, htrace, hkept, callsAllowed_append]
  exact ⟨⟨hbefore, callsAllowed_returns sts⟩, hearlier⟩

theorem perform_recordsAllowed (s : State) (f : InFlight) (a : Act)
    (ha : ∀ r, a = .callT r → ∀ ctx, (r.withCtx ctx).allowed) (h : s.recordsAllowed) :
    (s.perform f a).recordsAllowed := by
  obtain ⟨hbefore, hearlier⟩ := h
  obtain ⟨-, hkept⟩ := perform_trace s f a
  rw [State.recordsAllowed, hkept]
  rcases perform_records s f a with hsame | ⟨r, sts, hcall, htrace⟩
  · rw [hsame]; exact ⟨hbefore, hearlier⟩
  · rw [htrace, callsAllowed_append, callsAllowed_cons_call]
    exact ⟨⟨hbefore, ha r hcall _, callsAllowed_returns sts⟩, hearlier⟩

/-- Effects of a rule, all or some of them, record only calls that the block may make. -/
theorem runActs_recordsAllowed (i : Instr) (s u : State) (acts part : List Act) (hacts : actsOf i u = .ok acts)
    (hpart : part ⊆ acts) (h : s.recordsAllowed) : (runActs part s).recordsAllowed :=
  runActs_keeps State.recordsAllowed deliver_recordsAllowed part
    (fun v f _ ha _ hv => perform_recordsAllowed v f _
      (fun r hr => withCtx_allowed_of_callT_mem i u acts hacts r (hpart (hr ▸ ha))) hv) s h

/-- Settles O53: what a step records are the calls of a rule, and returns. -/
theorem everyCallIsOneTheBlockMayMake : Obligations.EveryCallIsOneTheBlockMayMake := by
  intro s t htrace hearlier hstep
  have hdelivered : s.deliver.recordsAllowed := deliver_recordsAllowed s ⟨htrace, hearlier⟩
  obtain ⟨-, ⟨f, -, hresume⟩ | ⟨-, -, rfl⟩ | ⟨item, i, -, -, -, hexec⟩⟩ := step_next s t hstep
  · obtain ⟨u, hlooked, hcase⟩ := resume_next _ _ _ hresume
    have hu : u.recordsAllowed := by
      rcases hlooked with rfl | ⟨c, -, rfl⟩
      · exact hdelivered
      · exact poll_recordsAllowed _ f c hdelivered
    rcases hcase with ⟨-, rfl⟩ | ⟨g, acts, -, hacts, rfl⟩
    · exact hu
    · exact runActs_recordsAllowed g.op u u acts _ hacts (List.drop_subset _ _) hu
  · exact hdelivered
  · rcases exec_next i _ t hexec with ⟨-, acts, hacts, rfl⟩ | ⟨w, d, rfl⟩
    · exact runActs_recordsAllowed i _ _ acts acts hacts (List.Subset.refl _) hdelivered
    · exact hdelivered

/-! ## Who makes calls -/

/-- The rule of an instruction that makes a call is INIT's or WRITE's (R101). -/
theorem init_or_write_of_callT_mem {i : Instr} {s : State} {acts : List Act} {r : CallReq} (h : actsOf i s = .ok acts)
    (hmem : .callT r ∈ acts) : (∃ q, i = .init q) ∨ ∃ q, i = .write q := by
  rcases rule_of_callT_mem i s acts r h hmem with ⟨q, hinit, -⟩ | ⟨q, -, hwrite, -⟩
  · exact .inl ⟨q, hinit⟩
  · exact .inr ⟨q, hwrite⟩

/-- Settles O52: a BUSY block of the invariant waits for a call of its rule, and an IDLE block that records a call has taken
an item whose rule makes one. -/
theorem onlyInitAndWriteMakeCalls : Obligations.OnlyInitAndWriteMakeCalls := by
  intro s t hinv hnr hstep hchanged
  obtain ⟨-, hblock⟩ := deliver_noReset s hnr
  have htrace := deliver_trace s hnr
  obtain ⟨-, ⟨f, hbusy, -⟩ | ⟨-, -, rfl⟩ | ⟨item, i, hidle, hfetch, hdecode, hexec⟩⟩ := step_next s t hstep
  · rw [hblock] at hbusy
    have hwaiting := hinv.block
    simp only [State.waiting, hbusy] at hwaiting
    obtain ⟨-, -, r, acts, -, hacts, hcall⟩ := hwaiting
    exact .inl ⟨f, hbusy, init_or_write_of_callT_mem hacts (List.mem_of_getElem? hcall)⟩
  · exact absurd htrace hchanged
  · rw [hblock] at hidle
    rw [State.fetch, deliver_io] at hfetch
    rw [deliver_cfg] at hdecode
    rcases exec_next i _ t hexec with ⟨-, acts, hacts, rfl⟩ | ⟨w, d, rfl⟩
    · have haccepted : (s.deliver.dropItem.accept i).noReset :=
        tickEvents_all (·.isReset = false) _ (toCome_deliver (·.isReset = false) s hnr)
      have hcalls : ∃ r, .callT r ∈ acts := by
        by_contra hnone
        exact hchanged ((runActs_trace_of_no_call acts _ haccepted (not_exists.1 hnone)).trans htrace)
      obtain ⟨r, hr⟩ := hcalls
      refine .inr ⟨hidle, item, hfetch, ?_⟩
      rcases init_or_write_of_callT_mem hacts hr with ⟨q, rfl⟩ | ⟨q, rfl⟩
      · exact .inl ⟨q, hdecode⟩
      · exact .inr ⟨q, hdecode⟩
    · exact absurd htrace hchanged

end Sys2Proof.Machine
end

section
/-! PROOFS. A call that does not return (O21, O25, O43): the state in which INIT and WRITE wait for it, and how long they
do. -/

namespace Sys2Proof.Machine

/-- Settles O21: the commit, then the priming calls that return, then the one that does not. -/
theorem initStaysBusyWhileACallIsOut : Obligations.InitStaysBusyWhileACallIsOut := by
  intro s q sts c hready hhv htp hvariant hcall hreturns hanswer
  rw [← primingReqs_withCtx, List.getElem?_map, Option.map_eq_some_iff] at hcall
  obtain ⟨r, hr, rfl⟩ := hcall
  obtain ⟨ret, l, hprimes⟩ := runActs_primes_pending (primingReqs q) sts r [.respondAcc] (s.committed q) _
    hready.2 rfl rfl hr hreturns hanswer
  have hcalls : (primingReqs q).map (·.withCtx (s.committed q).session.ctx) = primingCalls q := primingReqs_withCtx q
  have hexec := exec_init_of_passes s q hready ⟨hhv, htp, hvariant⟩
  rw [primingActs, hprimes, hcalls] at hexec
  exact ⟨_, _, hexec, rfl, rfl, rfl, rfl, rfl, rfl, rfl, rfl⟩

/-- ENCODE has a frame for every variant that the table has (R70, R79). -/
theorem exists_encodeDesc (c : Config) (v : Nat) (d : RawDesc) (hv : v ≤ 2) : ∃ F, encodeDesc c v d = some F :=
  Option.ne_none_iff_exists'.1 (mt (encodeDesc_eq_none_iff c v d).1 (Nat.not_lt.2 hv))

/-- Settles O25. -/
theorem writeStaysBusyWhileItsCallIsOut : Obligations.WriteStaysBusyWhileItsCallIsOut := by
  intro s q hready hhv htp hshift hvariant hanswer
  obtain ⟨F, hencode⟩ := exists_encodeDesc s.cfg s.session.variant.toNat (descOperand q.desc) hvariant
  have hexec := exec_write_pending s q F hready (writeActs_of_encode hhv htp hshift hencode) hanswer
  exact ⟨F, _, _, hencode, hexec, rfl, rfl, rfl, rfl, rfl, rfl, rfl⟩

/-- Settles O43: each look that finds the call still out moves the call's line and the count of answers alone. -/
theorem callThatDoesNotReturnKeepsTheBlockBusy : Obligations.CallThatDoesNotReturnKeepsTheBlockBusy := by
  intro s f c n hquiet hbusy hpending hanswers
  obtain ⟨l, hrun⟩ := run_pending n 0 s f c hquiet hbusy hpending hanswers
  exact ⟨s.looked l n, hrun, rfl, rfl, rfl, rfl, rfl⟩

end Sys2Proof.Machine
end

section
/-! PROOFS. The serial line (O59, O60): the bits of a frame's bytes in the order they go out, and the transfer that a WRITE
asks for. -/

namespace Sys2Proof.Machine

/-! ## The bits -/

/-- Bit 7 of byte `k` of a frame is F[31 - 8k], and the others follow it downward (R14, R105). -/
theorem serialByte_frameByte (F : Frame) (k : Nat) (hk : k < 4) :
    serialByte (frameByte F k) = (List.range 8).map fun i => F.getLsbD (31 - (8 * k + i)) := by
  refine List.map_congr_left fun i hi => ?_
  have hi : i < 8 := List.mem_range.1 hi
  have hbit : 24 - 8 * k + (7 - i) = 31 - (8 * k + i) := by omega
  rw [getLsbD_frameByte, hbit, decide_eq_true (by omega : 7 - i < 8), Bool.true_and]

theorem serial_frameBytes (F : Frame) : serial (frameBytes F) = serialFrame F := by
  have h32 : List.range 32 = (List.range 4).flatMap fun k => (List.range 8).map fun i => 8 * k + i := by decide
  have hbytes : frameBytes F = (List.range 4).map (frameByte F) := rfl
  rw [serial, serialFrame, hbytes, h32, List.flatMap_map, List.map_flatMap]
  refine List.flatMap_congr fun k hk => ?_
  rw [serialByte_frameByte F k (List.mem_range.1 hk), List.map_map]
  rfl

/-- Settles O59. -/
theorem frameGoesOutMostSignificantBitFirst : Obligations.FrameGoesOutMostSignificantBitFirst := by
  intro F
  refine ⟨serial_frameBytes F, ?_⟩
  rw [serial_frameBytes, serialFrame, List.length_map, List.length_range]

/-! ## The transfers -/

theorem wire_append (t u : List TraceEvent) : wire (t ++ u) = wire t ++ wire u := List.filterMap_append

/-- A shift call of a frame asks for one transfer of the frame's bits, and the returns ask for none (R105 to R107). -/
theorem wire_append_shift (t : List TraceEvent) (F : Frame) (ctx : Nat) (sts : List Byte) :
    wire (t ++ .call (.shift (frameBytes F) 4 ctx) :: sts.map .ret) =
      wire t ++ [{ before := .high, during := .low, after := .high, bits := serialFrame F }] := by
  have hreturns : wire (sts.map .ret) = [] := by simp [wire]
  rw [wire_append, ← serial_frameBytes]
  exact congrArg (wire t ++ _ :: ·) hreturns

/-! ## The link -/

/-- SYNC may have any level while the block waits for a shift call (R106, R138). -/
theorem syncRests_of_shift_out {s : State} {c : TCall} (hout : s.block.outstanding = some c) (hc : c.isShift = true) :
    s.syncRests := by
  have hshifting : s.shifting = true := by simp [State.shifting, hout, hc]
  intro hnot
  rw [hshifting] at hnot
  cases hnot

/-- A link stays ready where the session, LDAC and CLR are as they were and SYNC rests (R136). -/
theorem linkReady_congr {s t : State} (hses : t.session = s.session) (hldac : t.lines.ldac = s.lines.ldac)
    (hclr : t.lines.clr = s.lines.clr) (hrests : t.syncRests) (h : s.linkReady) : t.linkReady := by
  obtain ⟨hties, -, hlink⟩ := h
  refine ⟨?_, hrests, hses ▸ hlink⟩
  rw [State.boardTies, hses, hldac, hclr]
  exact hties

/-- Settles O60: the call has returned and SYNC is high (R106), or it is out and the block is shifting. -/
theorem writeAsksForOneTransfer : Obligations.WriteAsksForOneTransfer := by
  intro s q hready hhv htp hshift hvariant
  obtain ⟨F, hencode⟩ := exists_encodeDesc s.cfg s.session.variant.toNat (descOperand q.desc) hvariant
  have hacts := writeActs_of_encode hhv htp hshift hencode
  cases hanswer : s.env.answer s.env.polls with
  | returned st =>
    exact ⟨F, _, hencode, exec_write_returned s q F hready hacts st hanswer, wire_append_shift _ F _ [st],
      fun _ => rfl, linkReady_congr rfl rfl rfl fun _ => rfl⟩
  | pending =>
    exact ⟨F, _, hencode, exec_write_pending s q F hready hacts hanswer, wire_append_shift _ F _ [],
      syncRests_of_shift_out rfl rfl, linkReady_congr rfl rfl rfl (syncRests_of_shift_out rfl rfl)⟩

end Sys2Proof.Machine
end

section
/-! PROOFS. What goes wrong and what goes on (60_exceptions.md): what INIT's status says of its priming calls (O19), an INIT
that waits for a call and goes on when it returns (O22), and the variant check of WRITE that nothing meets (O27). -/

namespace Sys2Proof.Machine

/-! ## The OR of the statuses -/

/-- An OR of statuses is OK exactly when each of them is (R122). -/
theorem foldl_or_eq_zero_iff (sts : List Byte) (acc : Byte) :
    sts.foldl (· ||| ·) acc = 0x00#8 ↔ acc = 0x00#8 ∧ ∀ x ∈ sts, x = 0x00#8 := by
  induction sts generalizing acc with
  | nil => simp
  | cons st sts ih => rw [List.foldl_cons, ih, BitVec.or_eq_zero_iff, List.forall_mem_cons, and_assoc]

/-- Settles O19: the status is the OR of the priming statuses, beginning with 0x00. -/
theorem initStatusIsOkExactlyWhenEveryCallIs : Obligations.InitStatusIsOkExactlyWhenEveryCallIs := by
  intro s q sts hready hhv htp hvariant hlen hreturns
  refine ⟨_, _, exec_init_returned s q sts hready ⟨hhv, htp, hvariant⟩ hlen hreturns, rfl, ?_⟩
  exact (foldl_or_eq_zero_iff sts 0x00).trans (and_iff_right rfl)

/-! ## An INIT that waits -/

/-- Each priming call has two effects: the call and the OR of its status (R87). -/
theorem drop_primeList_append (rs : List CallReq) (as : List Act) (k : Nat) (hk : k ≤ rs.length) :
    (primeList rs ++ as).drop (2 * k) = primeList (rs.drop k) ++ as := by
  induction k generalizing rs with
  | zero => rfl
  | succ k ih =>
    cases rs with
    | nil => cases hk
    | cons r rs => exact ih rs (Nat.le_of_succ_le_succ hk)

/-- Once the k-th priming call has returned, what is left of INIT's rule is the OR of its status, the later calls and the
response (R87; log entry 3). -/
theorem drop_initActs_after_call (q : InitArgs) (k : Nat) (hpasses : InitPasses q) (hk : k < (primingReqs q).length) :
    (initActs q).drop (2 + 2 * k + 1) = .orAcc :: (primeList ((primingReqs q).drop (k + 1)) ++ [.respondAcc]) := by
  obtain ⟨hhv, htp, hvariant⟩ := hpasses
  rw [← List.drop_drop, ← List.drop_drop, initActs_valid q hhv htp hvariant, List.drop_succ_cons, List.drop_succ_cons,
    List.drop_zero, drop_primeList_append _ _ k hk.le, List.drop_eq_getElem_cons hk]
  rfl

/-- The state of an INIT whose k-th priming call `c` has returned `st`, once the status is ORed into B.acc (R87). -/
def State.primed (s : State) (q : InitArgs) (k : Nat) (c : TCall) (st : Byte) : State :=
  { s with
    block :=
      { phase := .busy { op := .init q, step := 2 + 2 * (k + 1), ret := st, pending := none },
        acc := s.block.acc ||| st }
    trace := s.trace ++ [.ret st]
    lines := linesAfter c (.returned st) s.env.polls s.lines
    env := { s.env with polls := s.env.polls + 1 } }

/-- A BUSY INIT whose k-th priming call returns makes the later calls and responds (R126). -/
theorem step_init_returned (s : State) (f : InFlight) (q : InitArgs) (k : Nat) (c : TCall) (st : Byte)
    (hquiet : s.env.events = []) (hbusy : s.block.phase = .busy f) (hop : f.op = .init q) (hpasses : InitPasses q)
    (hstep : f.step = 2 + 2 * k) (hk : k < (primingReqs q).length) (hpending : f.pending = some c)
    (hanswer : s.env.answer s.env.polls = .returned st) :
    step s = .next (runActs (primeList ((primingReqs q).drop (k + 1)) ++ [.respondAcc]) (s.primed q k c st)) := by
  rw [step_busy s f hquiet hbusy, resume_of_pending s f c hpending, poll_returned s f c st hanswer, hquiet,
    tickEvents_nil, ← hquiet, State.goOn]
  simp only [running_busy, actsOf, hop, hstep, drop_initActs_after_call q k hpasses hk]
  rw [runActs_orAcc _ _ _ (by exact hquiet) rfl]
  rfl

/-- The answers that follow the first one are still to come once it has been taken (R112). -/
theorem returnsNext_primed {s : State} {st : Byte} {sts : List Byte} (q : InitArgs) (k : Nat) (c : TCall)
    (h : s.returnsNext (st :: sts)) : (s.primed q k c st).returnsNext sts := by
  intro i x hx
  have hnext := h (i + 1) x hx
  rwa [Nat.add_comm i, ← Nat.add_assoc] at hnext

/-- Settles O22: the call that is out returns, and the calls that are left are made as in an INIT that never waited. -/
theorem waitingInitGoesOnWhenItsCallReturns : Obligations.WaitingInitGoesOnWhenItsCallReturns := by
  intro s f q k c st sts hquiet hbusy hop hhv htp hvariant hctx _ hpending hstep hreturns hlen
  have hcalls : (primingReqs q).map (·.withCtx (s.primed q k c st).session.ctx) = primingCalls q := by
    rw [← primingReqs_withCtx, ← hctx]
    rfl
  rw [← hcalls, List.length_map] at hlen
  have hnext := step_init_returned s f q k c st hquiet hbusy hop ⟨hhv, htp, hvariant⟩ hstep (by omega) hpending
    (hreturns 0 st rfl)
  obtain ⟨ret, l, hprimes, -⟩ := runActs_primes_returned ((primingReqs q).drop (k + 1)) sts [.respondAcc]
    (s.primed q k c st) _ hquiet rfl rfl (by rw [List.length_drop]; omega) (returnsNext_primed q k c hreturns)
  rw [hprimes, List.map_drop, hcalls, runActs_respondAcc _ _ [] (by exact hquiet) rfl] at hnext
  exact ⟨_, hnext, rfl, rfl, rfl, rfl, rfl⟩

/-! ## The variant check of WRITE -/

/-- R32: a session with S.tp = 1 is one that a successful INIT left. -/
theorem configured_of_legal {c : Config} {ses : Session} (hlegal : ses.legal c) (htp : ses.tp = true) :
    ses.configured := by
  rcases hlegal with rfl | ⟨hconfigured, -⟩
  · cases htp
  · exact hconfigured

/-- Settles O27: the variant of a configured session is one that the encoder knows. -/
theorem writeNeverMeetsAnUnknownVariant : Obligations.WriteNeverMeetsAnUnknownVariant := by
  intro s q hinv htp
  obtain ⟨-, hvariant⟩ := configured_of_legal hinv.session htp
  exact mt (encodeDesc_eq_none_iff s.cfg _ _).1 (Nat.not_lt.2 hvariant)

end Sys2Proof.Machine
end

section
/-! PROOFS. Resets and requests that meet a BUSY block (O35, O36, O40, O57, O58): a reset that falls due while an operation
runs abandons it where it stands, so only the effects made before remain. -/

namespace Sys2Proof.Machine

/-! ## A request while BUSY -/

/-- R140: whichever of the four requests it is. -/
theorem exec_request_busy (i : Instr) (s : State) (f : InFlight) (hreq : isRequest i = true)
    (hbusy : s.block.phase = .busy f) : exec i s = .refused .requestWhileBusy := by
  rw [exec_request i s hreq, issue_busy s i _ f hbusy]

/-- Settles O40. -/
theorem busyBlockHasNoStepForARequest : Obligations.BusyBlockHasNoStepForARequest := by
  intro s f hbusy
  have hrefused : ∀ i, isRequest i = true → exec i s = .refused .requestWhileBusy := fun i hreq =>
    exec_request_busy i s f hreq hbusy
  exact ⟨fun q => hrefused (.init q) rfl, fun q => hrefused (.write q) rfl, fun q => hrefused (.format q) rfl,
    hrefused .rsvd rfl⟩

/-! ## A late return -/

/-- Settles O58: whether or not there is an abandoned call to return. -/
theorem lateReturnHasNoEffectOnTheBlock : Obligations.LateReturnHasNoEffectOnTheBlock := fun s st =>
  ⟨lateReturn_session s st, lateReturn_block s st, lateReturn_dmem s st, lateReturn_trace s st, lateReturn_io s st⟩

/-! ## The one event to come is a reset -/

/-- The state that a reset leaves when no call is out and no other event is to come (R134, R135). -/
def State.abandoned (s : State) : State :=
  { s with
    session := Session.reset
    block := Block.reset
    trace := []
    earlier := s.earlier ++ s.trace
    env := { s.env with events := [] } }

/-- A reset that is due: a call that is out is one more that nothing waits for. -/
theorem deliver_reset (s : State) (hevents : s.env.events = [{ delay := 0, act := .reset }]) :
    s.deliver =
      { s.abandoned with
        env := { s.abandoned.env with orphans := s.env.orphans ++ s.block.outstanding.toList } } :=
  deliver_one s .reset hevents

/-- An operation that can go on waits for no call. -/
theorem outstanding_of_running {b : Block} {f : InFlight} (hf : b.running = some f) : b.outstanding = none := by
  obtain ⟨hbusy, hpending⟩ := (running_eq_some b f).1 hf
  rw [Block.outstanding, hbusy]
  exact hpending

theorem deliver_reset_running (s : State) (f : InFlight) (hevents : s.env.events = [{ delay := 0, act := .reset }])
    (hf : s.block.running = some f) : s.deliver = s.abandoned := by
  rw [deliver_reset s hevents, outstanding_of_running hf, Option.toList_none, List.append_nil]
  rfl

/-- An IDLE block with an empty input lets an idle step go by. -/
theorem act_idle (s : State) (hidle : s.block.phase = .idle) (hport : s.io.port = []) : s.act = .next s.tick := by
  have hfetch : s.fetch = none := by rw [State.fetch, hport, List.head?_nil]
  simp only [State.act, hidle, hfetch]

/-- Settles O57: after the reset the block is IDLE whatever its phase was, and finds nothing at its input. -/
theorem resetEventResetsTheBlockAlone : Obligations.ResetEventResetsTheBlockAlone := by
  intro s hevents hport
  have hrange : badAddress s.cfg.addrW s.env.events = none := by rw [hevents]; rfl
  refine ⟨s.env.orphans ++ s.block.outstanding.toList, ?_⟩
  rw [step_of_inRange s hrange, deliver_reset s hevents, act_idle _ (by rfl) (by exact hport)]
  rfl

/-! ## A reset while an operation runs -/

/-- No effect is made after a reset that is due before the next one. -/
theorem runActs_reset_due (a : Act) (as : List Act) (s : State) (f : InFlight)
    (hevents : s.env.events = [{ delay := 0, act := .reset }]) (hf : s.block.running = some f) :
    runActs (a :: as) s = s.abandoned := by
  simp only [runActs, deliver_reset_running s f hevents hf]
  rfl

/-- Every rule makes an effect, for it ends in a response (R82). -/
theorem exists_cons_of_actsOf (i : Instr) (s : State) (acts : List Act) (hreq : isRequest i = true)
    (h : actsOf i s = .ok acts) : ∃ a as, acts = a :: as := by
  rw [← List.ne_nil_iff_exists_cons]
  cases i with
  | init q =>
    cases h
    rcases initActs_cases q with ⟨st, hraise⟩ | ⟨-, hacts⟩
    · simp [hraise, raise]
    · simp [hacts]
  | write q =>
    cases h
    rcases writeActs_cases s.cfg s.session q with ⟨st, hraise⟩ | ⟨-, F, hacts⟩
    · simp [hraise, raise]
    · simp [hacts]
  | format q =>
    rcases formatActs_cases s.cfg s.session q acts h with ⟨st, rfl⟩ | ⟨-, F, rfl⟩
    · simp [raise]
    · simp
  | rsvd => cases h; simp [rsvdActs, raise]
  | _ => cases hreq

/-- A request that is not refused is abandoned by a reset right after its acceptance. -/
theorem exec_reset_after_acceptance (i : Instr) (s : State) (acts : List Act) (hidle : s.block.phase = .idle)
    (hevents : s.env.events = [{ delay := 1, act := .reset }]) (hreq : isRequest i = true)
    (hacts : actsOf i s = .ok acts) : exec i s = .next s.abandoned := by
  obtain ⟨a, as, rfl⟩ := exists_cons_of_actsOf i s acts hreq hacts
  have haccepted : (s.accept i).env.events = [{ delay := 0, act := .reset }] := by rw [accept_env, hevents]; rfl
  rw [exec_request i s hreq, hacts, issue_idle s i _ hidle, runActs_reset_due a as _ _ haccepted rfl]
  rfl

/-- FORMAT is refused only for a range past the top of DMEM, after all its checks (R41). -/
theorem exists_formatActs (c : Config) (ses : Session) (q : FormatArgs)
    (h : q.hv = false ∨ q.dv = false ∨ 2 < ses.variant.toNat ∨ q.destBase + q.length ≤ 2 ^ c.addrW) :
    ∃ acts, formatActs c ses q = .ok acts := by
  unfold formatActs
  split
  · exact ⟨_, rfl⟩
  · next hhv =>
    split
    · exact ⟨_, rfl⟩
    · next hdv =>
      split
      · exact ⟨_, rfl⟩
      · next F hencode =>
        have hknown : ¬ 2 < ses.variant.toNat := fun hlt => by
          rw [(encodeDesc_eq_none_iff c _ _).2 hlt] at hencode
          cases hencode
        have hfits := ((h.resolve_left hhv).resolve_left hdv).resolve_left hknown
        exact ⟨_, if_neg (Nat.not_lt.2 hfits)⟩

/-- Settles O36: each request has a rule that is not refused, and the reset comes before its first effect. -/
theorem resetAfterAcceptanceAbandonsTheRequest : Obligations.ResetAfterAcceptanceAbandonsTheRequest := by
  intro s hidle hevents
  have habandoned : ∀ i acts, isRequest i = true → actsOf i s = .ok acts → exec i s = .next s.abandoned :=
    fun i acts => exec_reset_after_acceptance i s acts hidle hevents
  refine ⟨fun q => habandoned (.init q) _ rfl rfl, fun q => habandoned (.write q) _ rfl rfl, fun q hq => ?_,
    habandoned .rsvd _ rfl rfl⟩
  obtain ⟨acts, hacts⟩ := exists_formatActs s.cfg s.session q hq
  exact habandoned (.format q) acts rfl hacts

/-! ## A reset between the byte writes of a FORMAT -/

/-- Of byte writes that a reset cuts short, those made before it remain. -/
theorem runActs_storeActs_reset (l : List Host.Cell) (st : Byte) (s : State) (f : InFlight) (k : Nat)
    (hevents : s.env.events = [{ delay := k, act := .reset }]) (hk : k ≤ l.length) (hf : s.block.running = some f) :
    runActs (storeActs l st) s = State.abandoned { s with dmem := storeAll (l.take k) s.dmem } := by
  induction l generalizing s f k with
  | nil =>
    obtain rfl : k = 0 := Nat.le_zero.1 hk
    exact runActs_reset_due _ [] s f hevents hf
  | cons p l ih =>
    cases k with
    | zero => exact runActs_reset_due _ (storeActs l st) s f hevents hf
    | succ k =>
      have hnext : (s.perform f (.store p.1 p.2)).env.events = [{ delay := k, act := .reset }] := by
        rw [perform_events, hevents]; rfl
      have hdeliver := deliver_early s _ _ hevents (Nat.succ_ne_zero k)
      calc runActs (storeActs (p :: l) st) s
          = runActs (storeActs l st) (s.perform f (.store p.1 p.2)) := by
            simp only [storeActs_cons, runActs, hdeliver, hf]
        _ = _ := ih _ { f with step := f.step + 1, pending := none } k hnext (Nat.le_of_succ_le_succ hk) rfl

/-- The first bytes that FORMAT writes are those of a shorter FORMAT. -/
theorem take_formatCells (F : Frame) (q : FormatArgs) (k : Nat) (hk : k ≤ q.length) :
    (formatCells F q).take k = formatCells F { q with length := k } := by
  simp only [formatCells, ← List.map_take, List.take_range, Nat.min_eq_left hk]

/-- The state with no outside event to come. -/
def State.undisturbed (s : State) : State := { s with env := { s.env with events := [] } }

/-- A FORMAT that a reset cuts short after `k` byte writes leaves DMEM as an undisturbed FORMAT of length `k` does. -/
theorem formatted_reset (s : State) (q : FormatArgs) (F : Frame) (k : Nat) (hidle : s.block.phase = .idle)
    (hevents : s.env.events = [{ delay := k + 1, act := .reset }]) (hk : k ≤ q.length) :
    s.formatted q F =
      State.abandoned { s with dmem := (s.undisturbed.formatted { q with length := k } F).dmem } := by
  have haccepted : (s.accept (.format q)).env.events = [{ delay := k, act := .reset }] := by
    rw [accept_env, hevents]; rfl
  rw [State.formatted, runActs_storeActs_reset _ _ _ _ k haccepted (by rwa [length_formatCells]) rfl,
    take_formatCells F q k hk, formatted_eq s.undisturbed _ F ⟨hidle, rfl⟩]
  rfl

/-- Settles O35: what an undisturbed FORMAT of length k writes and leaves. -/
theorem resetCutsFormatShort : Obligations.ResetCutsFormatShort := by
  intro s q k hidle hevents hk hhv hdv hvariant hrange
  obtain ⟨F, hencode, hexec⟩ := exec_format_of_passes s q hidle ⟨hhv, hdv, hvariant, hrange⟩
  rw [formatted_reset s q F k hidle hevents hk] at hexec
  have hquiet : s.undisturbed.env.events = [] := rfl
  have hnr := noReset_of_quiet hquiet
  have hother := noOtherWrite_of_quiet hquiet
  refine ⟨F, _, hencode, hexec, rfl, rfl, rfl, rfl, fun j hj => ?_, fun a ha => ?_⟩
  · exact dmemRead_of_find (formatted_find_inside_alone s.undisturbed { q with length := k } F hnr hother j hj)
  · exact dmemRead_congr (formatted_find_outside_alone s.undisturbed { q with length := k } F hnr hother a ha)

end Sys2Proof.Machine
end
